-- ==== Sys2Proof/Word.lean ====
section
/-! DEFINITION. The bit-vector types of the engine: bytes, 32-bit words and the 64-bit length counter
(`00_scope.md` R10). Addition, subtraction and multiplication on them wrap at their width, which is what
`+32`, `-32`, `*32` (R11, R12) and `+64` say. -/

namespace Sys2Proof

/-- A byte: 8 bits, 0..255 (`00_scope.md` R10). -/
abbrev Byte := BitVec 8

/-- A word, U32: 32 bits. Its `+`, `-`, `*` are `+32`, `-32`, `*32` (`00_scope.md` R10, R11, R12). -/
abbrev Word := BitVec 32

/-- A U64, the width of `total_length` (`00_scope.md` R6 `TLW`, R10). -/
abbrev Len64 := BitVec 64

end Sys2Proof
end

