-- ==== Sys2Proof/Config.lean ====
section
/-! DEFINITION. The structural parameters of the engine (`00_scope.md` R6) and the one parameter the spec
leaves OPEN that a model with an adapter must take as an argument (`60_exceptions.md` R188). The numeric
constants (primes, rotations, shifts, lane seeds) are in `Machine/Constants.lean`, in this same namespace. -/

namespace Sys2Proof.Config

/-- Number of accumulator lanes (R6). -/
@[simp] abbrev NLANES : Nat := 4

/-- Block size in bytes (R6). -/
@[simp] abbrev BLOCK : Nat := 16

/-- Bytes per block word (R6). -/
@[simp] abbrev WORD : Nat := 4

/-- Capacity of the pending buffer in bytes (R6). -/
@[simp] abbrev PENDCAP : Nat := 15

/-- Width of `total_length` in bits (R6). -/
@[simp] abbrev TLW : Nat := 64

/-- Width in bits of the `len` field of an `UPDATE` record (`30_encoding.md` R73). -/
@[simp] abbrev LENW : Nat := 32

/-- The seed when none is given (R6, `40_init.md` R104). -/
@[simp] abbrev DEFAULT_SEED : Word := 0

/-- Hash contexts held by one engine (R6). -/
@[simp] abbrev NCTX : Nat := 1

/-- `ERR_ORDER`: which of two applicable errors a one-shot call reports. OPEN in the spec
(`60_exceptions.md` R188), so every definition and claim about the adapter takes it as an argument. -/
inductive ErrOrder where
  | dataFirst
  | seedFirst
  deriving DecidableEq, Repr

end Sys2Proof.Config
end

