-- ==== Sys2Proof/Machine/Constants.lean ====
section
/-! DEFINITION. The numeric constants of the engine, each a named constant so that a correction is one line
(`00_scope.md` R7, `40_init.md` R101). The document prints none of them but `ROT_ROUND`: the spec supplies
them from general knowledge (log entry 9, PRESUMED by the spec itself). -/

namespace Sys2Proof.Config

/-- R7. -/
def PRIME1 : Word := 2654435761
/-- R7. -/
def PRIME2 : Word := 2246822519
/-- R7. -/
def PRIME3 : Word := 3266489917
/-- R7. -/
def PRIME4 : Word := 668265263
/-- R7. -/
def PRIME5 : Word := 374761393

/-- Left rotation of the block round (R6; in the source). -/
def ROT_ROUND : Nat := 13
/-- Left rotations of the lane merge (R7). -/
def ROT_MERGE : Vector Nat 4 := #v[1, 7, 12, 18]
/-- Left rotation of the 4-byte tail step (R7). -/
def ROT_TAIL4 : Nat := 17
/-- Left rotation of the 1-byte tail step (R7). -/
def ROT_TAIL1 : Nat := 11
/-- Right shifts of the avalanche (R7). -/
def SHIFT_AV : Vector Nat 3 := #v[15, 13, 16]

/-- The lane seeding constants `c[0..3]` (`40_init.md` R101). -/
def SEED_ADD : Vector Word 4 := #v[PRIME1 + PRIME2, PRIME2, 0, 0 - PRIME1]

/-- The lanes `INIT` gives for a seed: lane `i` is `seed +32 c[i]` (`40_init.md` R101). -/
def seedLanes (seed : Word) : Vector Word 4 :=
  Vector.ofFn fun i => seed + SEED_ADD[i]

end Sys2Proof.Config
end

