-- ==== Sys2Proof/Machine/State.lean ====
section
/-! DEFINITION. The state of the machine: the engine's context, exactly the items of `10_state.md` R20, and
beside it what the spec gives the harness that drives one engine (R27: the program, the byte offset, the
command index; `30_encoding.md` R80: the responses). Plain data throughout. -/

namespace Sys2Proof.Machine

/-- The pending buffer with its count: the bytes `pending[0 .. pcount)` in stream order. The spec asks for
this form ("a sequence of length `pcount` is the faithful representation", `10_state.md` R26). -/
abbrev Memory := List Byte

/-- One hash context: the complete architectural state of an engine (`10_state.md` R20). -/
structure Context where
  /-- R22: 32 bits, written by `INIT` and reset only. -/
  seed : Word
  /-- R21: the four 32-bit accumulators `lane[0..3]`. -/
  lanes : Vector Word 4
  /-- R24, R26: the valid bytes of `pending`; their number is `pcount`. -/
  pending : Memory
  /-- R23: bytes passed to `UPDATE` since the last `INIT` or reset, 64 bits. -/
  totalLength : Len64
  deriving DecidableEq, Repr

/-- The register `pcount` (`10_state.md` R24): stored once, as the length of `pending` (R20, R26). -/
abbrev Context.pcount (c : Context) : Nat := c.pending.length

/-- The error kinds (`60_exceptions.md` R181). The first three are raised by the adapter of
`30_encoding.md` R70, the fourth by the engine. -/
inductive ErrorKind where
  | invalidArgumentType
  | invalidSeed
  | missingArgument
  | illegalCommand
  deriving DecidableEq, Repr

/-- A response (`30_encoding.md` R80). -/
inductive Response where
  /-- Success without a value: `INIT`, `UPDATE`. -/
  | ok
  /-- Success of `DIGEST`, with the digest. -/
  | digest (value : Word)
  /-- A nonzero status. -/
  | error (kind : ErrorKind)
  deriving DecidableEq, Repr

/-- One engine and the harness that feeds it. -/
structure State where
  /-- The engine: the five items of `10_state.md` R20 and nothing else. -/
  ctx : Context
  /-- The program in byte form: the record stream the host presents (`30_encoding.md` R78). -/
  program : List Byte
  /-- The byte offset `bo` of the next record (`10_state.md` R27); a natural number, it does not wrap. -/
  bo : Nat
  /-- The command index `ci` (`10_state.md` R27): commands executed so far, successful or failed. -/
  ci : Nat
  /-- The responses produced so far, in command order (`30_encoding.md` R80, `70_reset_and_hazards.md` R215). -/
  responses : List Response
  deriving DecidableEq, Repr

/-- What stops the machine with a fault: nothing. "there is no fatal/process-terminating condition
distinguishable from a reported error" (`60_exceptions.md` R180): every error is a response and a next state.
The type has no constructor (log entry 11); safe, since it adds no behaviour. -/
inductive Fault where
  deriving DecidableEq, Repr

/-- What the spec says a model gives no meaning to. -/
inductive Refusal where
  /-- Raised by a dispatch arm that has no meaning yet. Safe. No arm of this model raises it. -/
  | notModelled (mnemonic : String)
  /-- Raised by `UPDATE` when `total_length + n >= 2^64` (`10_state.md` R23). Safe: nothing is provable of it. -/
  | totalLengthOverflow
  /-- Raised by `step` on a program that ends inside a record, at that record's offset (`30_encoding.md` R79).
  Safe: the hardware waits there for the host. -/
  | truncatedRecord (offset : Nat)
  /-- Raised by a system of engines when two commands reach one engine with no order between them
  (`20_memory.md` R62). Safe: no interleaving is given a meaning. -/
  | unserialisedAccess (engine : Nat)
  deriving DecidableEq, Repr

/-- The context after reset: what `INIT` with the default seed gives (`10_state.md` R33). -/
def Context.reset : Context where
  seed := Config.DEFAULT_SEED
  lanes := Config.seedLanes Config.DEFAULT_SEED
  pending := []
  totalLength := 0

/-- The machine right after reset: the engine as `10_state.md` R33 says, idle (`70_reset_and_hazards.md`
R211), no program presented, `bo` and `ci` at 0 (R27), no response given (R210). -/
def State.reset : State where
  ctx := Context.reset
  program := []
  bo := 0
  ci := 0
  responses := []

end Sys2Proof.Machine
end

