-- ==== Sys2Proof/Machine/Flags.lean ====
section
/-! DEFINITION. There are no flags, condition codes or predicates (`10_state.md` R28). The conditions the
engine tests are computed from the registers when a command runs and are not stored; they stand here. -/

namespace Sys2Proof.Machine

/-- `total_length < 16`, on the full 64-bit counter (`10_state.md` R28, `42_digest.md` R131). -/
def shortInput (total : Len64) : Bool := decide (total.toNat < Config.BLOCK)

/-- `total_length + n < 2^64`: the bound under which an `UPDATE` has a meaning (`10_state.md` R23). -/
def lengthFits (total : Len64) (n : Nat) : Bool := decide (total.toNat + n < 2 ^ Config.TLW)

/-- `floor(m / 16)`: complete blocks in `m` buffered bytes (`41_update.md` R110). -/
def completeBlocks (m : Nat) : Nat := m / Config.BLOCK

/-- `floor(c / 4)`: 4-byte tail chunks among `c` pending bytes (`42_digest.md` R136). -/
def tailWords (c : Nat) : Nat := c / Config.WORD

end Sys2Proof.Machine
end

