-- ==== Sys2Proof/Syntax.lean ====
section
/-! DEFINITION. The commands of the engine: one constructor for each row of `spec/opcode_table.json`. -/

namespace Sys2Proof

/-- A command (`30_encoding.md` R70 (2), R76). -/
inductive Instr where
  /-- `INIT seed` (`40_init.md` R100): the operand is a U32, every value legal. -/
  | init (seed : Word)
  /-- `UPDATE data` (`41_update.md` R110): the operand is a byte sequence in stream order. -/
  | update (data : List Byte)
  /-- `DIGEST` (`42_digest.md` R130): no operand. -/
  | digest
  deriving DecidableEq, Repr

end Sys2Proof
end

