-- ==== Sys2Proof/WellFormed.lean ====
section
/-! DEFINITION. Which commands have a record: the length of an `UPDATE` payload must fit the 32-bit `len`
field (`30_encoding.md` R70 (2), R73). Nothing else can be ill-formed: every seed is legal (R72). -/

namespace Sys2Proof

/-- The command can be encoded as one record (`30_encoding.md` R72 to R74). The limit is the encoding's,
not the engine's (R73): the meanings do not look at it. -/
def Instr.wf : Instr → Bool
  | .init _ => true
  | .update data => decide (data.length < 2 ^ Config.LENW)
  | .digest => true

/-- `Instr.wf` as a proposition. -/
abbrev WellFormed (i : Instr) : Prop := i.wf = true

end Sys2Proof
end

