-- ==== Sys2Proof/Decode.lean ====
section
/-! DEFINITION. The record decoder, total on any bytes, and the encoder (`30_encoding.md` R71 to R79).
Byte order helpers `le32` and `bytesLE32` (`00_scope.md` R14) stand here because records use them too. -/

namespace Sys2Proof

/-! ## Byte order -/

/-- Four bytes in stream order as a little-endian word: the first is least significant (`00_scope.md` R14). -/
def le32 (b0 b1 b2 b3 : Byte) : Word :=
  b3 ++ b2 ++ b1 ++ b0

/-- `LE32(b, o)` (`00_scope.md` R14). The spec uses it only where `o + 4 <= len(b)`, and so does the model:
no rule reads what stands here for a byte past the end (log entry 8). -/
def le32At (b : List Byte) (o : Nat) : Word :=
  le32 (b.getD o 0) (b.getD (o + 1) 0) (b.getD (o + 2) 0) (b.getD (o + 3) 0)

/-- `bytesLE32(v)`: `v[7:0], v[15:8], v[23:16], v[31:24]` (`00_scope.md` R14). -/
def bytesLE32 (v : Word) : List Byte :=
  [v.extractLsb' 0 8, v.extractLsb' 8 8, v.extractLsb' 16 8, v.extractLsb' 24 8]

/-! ## Opcodes (`30_encoding.md` R76) -/

/-- Opcode of `INIT`. -/
def opInit : Byte := 0x01

/-- Opcode of `UPDATE`. -/
def opUpdate : Byte := 0x02

/-- Opcode of `DIGEST`. -/
def opDigest : Byte := 0x03

/-- The opcode selects no command: 0x00 or 0x04..0xFF (`30_encoding.md` R77). -/
def reservedOpcode (op : Byte) : Bool :=
  op != opInit && op != opUpdate && op != opDigest

/-! ## Decoding one record -/

/-- What the bytes at the front of a record stream are. -/
inductive Decoded where
  /-- No byte has arrived: there is no record. -/
  | empty
  /-- A complete record of `len` bytes (R72 to R74, R78). -/
  | command (i : Instr) (len : Nat)
  /-- A reserved opcode: an illegal command, one byte long (R77). -/
  | reserved (op : Byte)
  /-- The bytes end before the record does (R79). -/
  | truncated
  deriving DecidableEq, Repr

/-- Format `I` after its opcode (R72). -/
def decodeInit : List Byte → Decoded
  | b1 :: b2 :: b3 :: b4 :: _ => .command (.init (le32 b1 b2 b3 b4)) 5
  | _ => .truncated

/-- Format `U` after its opcode (R73): `len`, then that many payload bytes. -/
def decodeUpdate : List Byte → Decoded
  | b1 :: b2 :: b3 :: b4 :: payload =>
    let n := (le32 b1 b2 b3 b4).toNat
    if n ≤ payload.length then .command (.update (payload.take n)) (5 + n) else .truncated
  | _ => .truncated

/-- The record at the front of `bytes` (R71, R76 to R79). Total: every byte sequence is one of the four. -/
def decode : List Byte → Decoded
  | [] => .empty
  | op :: rest =>
    if op = opInit then decodeInit rest
    else if op = opUpdate then decodeUpdate rest
    else if op = opDigest then .command .digest 1
    else .reserved op

/-! ## Encoding -/

/-- The record of a command (R72 to R74). It is one for a well-formed command: an `UPDATE` of 2^32 bytes or more has
no record (R73), and what stands here for it (a `len` field of `n` mod 2^32 before the whole payload) is no encoding
of it; that the function is total is a DESIGN CHOICE (log entry 12). -/
def encode : Instr → List Byte
  | .init seed => opInit :: bytesLE32 seed
  | .update data => opUpdate :: (bytesLE32 (BitVec.ofNat 32 data.length) ++ data)
  | .digest => [opDigest]

/-- The length of the record whose first bytes are given (R78): 5 for opcode 0x01, `5 + LE32(rec, 1)` for
opcode 0x02, 1 for every other opcode. -/
def recordLength (rec : List Byte) : Nat :=
  if rec.getD 0 0 = opInit then 5
  else if rec.getD 0 0 = opUpdate then 5 + (le32At rec 1).toNat
  else 1

/-! ## A record given as a number -/

/-- The first `n` bytes of the number `w`: record bit `8*k + b` is bit `b` of byte `k` (R71). -/
def tableBytes (n w : Nat) : List Byte :=
  (List.range n).map fun k => BitVec.ofNat 8 (w >>> (8 * k))

/-- The record whose low `nbits` bits are those of `w` and whose other bits are zero, cut at the length R78
gives it (log entry 19). -/
def recordOfWord (nbits w : Nat) : List Byte :=
  let head := tableBytes (max 5 ((nbits + 7) / 8)) (w % 2 ^ nbits)
  let len := recordLength head
  head.take len ++ List.replicate (len - head.length) 0

/-- The instruction the decoder reads from that record; none where it is no command. -/
def decodeTableWord (nbits w : Nat) : Option Instr :=
  match decode (recordOfWord nbits w) with
  | .command i _ => some i
  | _ => none

end Sys2Proof
end

