-- ==== Sys2Proof/Machine/Operands.lean ====
section
/-! DEFINITION. The engine's reads of bytes: blocks and block words of the stream (`20_memory.md` R52,
`41_update.md` R113) and reads of the pending buffer (`00_scope.md` R15, `20_memory.md` R53, R55). -/

namespace Sys2Proof.Machine

/-- The pending buffer holds at most `PENDCAP` bytes (`10_state.md` R26). A list of bytes has one form only,
so equal buffers are equal data. -/
abbrev Memory.wf (m : Memory) : Prop := m.length ≤ Config.PENDCAP

/-- `MemRead(a, 1)`, zero-extended (`00_scope.md` R15, `20_memory.md` R53). Used only where `a + 1 <= pcount`. -/
def Memory.read1 (m : Memory) (a : Nat) : Byte := m.getD a 0

/-- `MemRead(a, 4)`, little-endian (`00_scope.md` R15, `20_memory.md` R53). Used only where `a + 4 <= pcount`. -/
def Memory.read4 (m : Memory) (a : Nat) : Word := le32At m a

/-- `MemWrite(a, 1, v)` (`00_scope.md` R15): replaces a valid byte, or adds the byte just past the last one,
which is how the streaming form of `41_update.md` R121 grows `pcount`. -/
def Memory.write1 (m : Memory) (a : Nat) (v : Byte) : Memory :=
  m.take a ++ v :: m.drop (a + 1)

/-- Block `j` of a byte sequence: `buf[16*j .. 16*j + 16)` (`41_update.md` R110, `20_memory.md` R54). -/
def blockAt (buf : List Byte) (j : Nat) : List Byte :=
  (buf.drop (Config.BLOCK * j)).take Config.BLOCK

/-- `block_word[i] = LE32(B, 4*i)` (`20_memory.md` R52, `41_update.md` R113). -/
def blockWord (B : List Byte) (i : Fin 4) : Word := le32At B (Config.WORD * i)

end Sys2Proof.Machine
end

