-- ==== Sys2Proof/Machine/Ops.lean ====
section
/-! DEFINITION. Operations shared by the commands: rotation, answering a command, raising an error, moving
past a record, reset, and the bytes of a response. -/

namespace Sys2Proof.Machine

/-- `rotl32(x, r)` for `1 <= r <= 31` (`00_scope.md` R13). -/
def rotl32 (x : Word) (r : Nat) : Word := (x <<< r) ||| (x >>> (32 - r))

/-! ## Ending a command -/

/-- Every executed command produces exactly one response, in command order (`30_encoding.md` R80), and moves
the command index on by one, successful or failed (`10_state.md` R27). -/
def State.respond (r : Response) (s : State) : State :=
  { s with ci := s.ci + 1, responses := s.responses ++ [r] }

/-- All state writes of a command take effect together when it completes (`00_scope.md` R15), with its response. -/
def State.complete (c : Context) (r : Response) (s : State) : State :=
  State.respond r { s with ctx := c }

/-- `raise <Error>`: "Trap entry" is the error response and nothing more: no state saved, none changed, no
handler (`60_exceptions.md` R180, R187, R190). There is no return from it: the engine is at once ready for the
next command (R191). -/
def State.raise (e : ErrorKind) (s : State) : State :=
  State.respond (.error e) s

/-- Move the byte offset past a record of `len` bytes (`10_state.md` R27, `30_encoding.md` R78). -/
def State.advance (len : Nat) (s : State) : State :=
  { s with bo := s.bo + len }

/-! ## Reset -/

/-- Reset at any time between commands: the engine as after `INIT 0`, no response (`70_reset_and_hazards.md`
R210; power returning has the same effect, `60_exceptions.md` R198). The harness's own fields stay (log entry 7). -/
def State.applyReset (s : State) : State :=
  { s with ctx := Context.reset }

/-! ## Response records (`30_encoding.md` R80, `60_exceptions.md` R181) -/

/-- The code of an error (`60_exceptions.md` R181). -/
def ErrorKind.code : ErrorKind → Byte
  | .invalidArgumentType => 0x01
  | .invalidSeed => 0x02
  | .missingArgument => 0x03
  | .illegalCommand => 0x04

/-- The status byte of a response: 0x00 is success (`30_encoding.md` R80). -/
def Response.status : Response → Byte
  | .ok => 0x00
  | .digest _ => 0x00
  | .error e => e.code

/-- The bytes of a response (`30_encoding.md` R80). -/
def Response.bytes : Response → List Byte
  | .ok => [0x00]
  | .digest v => 0x00 :: bytesLE32 v
  | .error e => [e.code]

/-- The response stream of a run (`70_reset_and_hazards.md` R215). -/
def State.responseBytes (s : State) : List Byte := s.responses.flatMap Response.bytes

end Sys2Proof.Machine
end

