-- ==== Sys2Proof/Machine/Digest.lean ====
section
/-! DEFINITION. The finalization combiner: `DIGEST` (`42_digest.md`). -/

namespace Sys2Proof

/-- `MERGE(v0, v1, v2, v3)` (`42_digest.md` R132): rotate each lane by its own amount and add; no multiply
(`90_conflicts.md` C1). A configuration function of its own, since no number of the source checks it (log
entry 10). -/
def Config.merge (L : Vector Word 4) : Word :=
  Machine.rotl32 L[0] ROT_MERGE[0] + Machine.rotl32 L[1] ROT_MERGE[1]
    + Machine.rotl32 L[2] ROT_MERGE[2] + Machine.rotl32 L[3] ROT_MERGE[3]

end Sys2Proof

namespace Sys2Proof.Machine

/-- `START(seed, L, total)` (`42_digest.md` R131). -/
def start (seed : Word) (L : Vector Word 4) (total : Len64) : Word :=
  if shortInput total then seed + Config.PRIME5 else Config.merge L

/-- `LENMIX(acc, total)`: only `total[31:0]` reaches the digest (`42_digest.md` R133). -/
def lenMix (acc : Word) (total : Len64) : Word := acc + total.extractLsb' 0 32

/-- `TAIL4(acc, w)` (`42_digest.md` R134): no XOR (`90_conflicts.md` C2). -/
def tail4 (acc w : Word) : Word :=
  rotl32 (acc + w * Config.PRIME3) Config.ROT_TAIL4 * Config.PRIME4

/-- `TAIL1(acc, b)` (`42_digest.md` R135): the byte is zero-extended; no XOR. -/
def tail1 (acc : Word) (b : Byte) : Word :=
  rotl32 (acc + b.setWidth 32 * Config.PRIME5) Config.ROT_TAIL1 * Config.PRIME1

/-- `TAIL(acc, P)` (`42_digest.md` R136): `floor(c / 4)` words from offset 0 upward, then the `c mod 4` bytes
left, upward. -/
def tail (acc : Word) (P : Memory) : Word :=
  let q := tailWords P.length
  let acc4 := (List.range q).foldl (fun a k => tail4 a (P.read4 (Config.WORD * k))) acc
  (List.range' (Config.WORD * q) (P.length - Config.WORD * q)).foldl (fun a j => tail1 a (P.read1 j)) acc4

/-- One xor-shift of the avalanche (`42_digest.md` R137). -/
def xorShift (h : Word) (r : Nat) : Word := h ^^^ (h >>> r)

/-- `AVALANCHE(h)` (`42_digest.md` R137): five steps. -/
def avalanche (h : Word) : Word :=
  xorShift (xorShift (xorShift h Config.SHIFT_AV[0] * Config.PRIME2) Config.SHIFT_AV[1] * Config.PRIME3)
    Config.SHIFT_AV[2]

/-- The value `DIGEST` returns in a context (`42_digest.md` R130). -/
def digestValue (c : Context) : Word :=
  avalanche (tail (lenMix (start c.seed c.lanes c.totalLength) c.totalLength) c.pending)

/-- `DIGEST` (`42_digest.md` R130): the response carries the value; nothing of the context is written. -/
def execDigest (s : State) : Host.Outcome State Fault Refusal :=
  .next (State.respond (.digest (digestValue s.ctx)) s)

end Sys2Proof.Machine
end

