-- ==== Sys2Proof/Machine/Init.lean ====
section
/-! DEFINITION. The state initializer: `INIT` (`40_init.md`). -/

namespace Sys2Proof.Machine

/-- The context `INIT` leaves: every item written, nothing of the previous one read (`40_init.md` R100, R101). -/
def Context.seeded (seed : Word) : Context where
  seed := seed
  lanes := Config.seedLanes seed
  pending := []
  totalLength := 0

/-- `INIT seed` (`40_init.md` R100): response `00`, no value, in every state. -/
def execInit (seed : Word) (s : State) : Host.Outcome State Fault Refusal :=
  .next (State.complete (Context.seeded seed) .ok s)

end Sys2Proof.Machine
end

