-- ==== Sys2Proof/Machine/Update.lean ====
section
/-! DEFINITION. The block mixer and the buffer carry: `UPDATE` (`41_update.md`). -/

namespace Sys2Proof.Machine

/-! ## The block mixer -/

/-- `ROUND(a, w)` (`41_update.md` R111). -/
def roundLane (a w : Word) : Word :=
  rotl32 (a + w * Config.PRIME2) Config.ROT_ROUND * Config.PRIME1

/-- `BLOCK(L, B)` (`41_update.md` R112): lane `i` takes word `i`, no lane reads another. -/
def blockMix (L : Vector Word 4) (B : List Byte) : Vector Word 4 :=
  Vector.ofFn fun i => roundLane L[i] (blockWord B i)

/-- The block loop of `41_update.md` R110: blocks `0 .. k-1` of `buf`, ascending. -/
def mixBlocks (k : Nat) (L : Vector Word 4) (buf : List Byte) : Vector Word 4 :=
  (List.range k).foldl (fun L j => blockMix L (blockAt buf j)) L

/-! ## The command -/

/-- The context after `UPDATE data` (`41_update.md` R110): the complete blocks of `pending ++ data` are mixed
in, what is left becomes `pending`, the length grows by `n`, `seed` is not written. -/
def updateContext (data : List Byte) (c : Context) : Context :=
  let buf := c.pending ++ data
  let k := completeBlocks buf.length
  { c with
    lanes := mixBlocks k c.lanes buf
    pending := buf.drop (Config.BLOCK * k)
    totalLength := c.totalLength + BitVec.ofNat 64 data.length }

/-- `UPDATE data` (`41_update.md` R110): refused where the length would reach 2^64 (`10_state.md` R23), else
all of it takes effect at once, response `00` (R118). -/
def execUpdate (data : List Byte) (s : State) : Host.Outcome State Fault Refusal :=
  if lengthFits s.ctx.totalLength data.length then
    .next (State.complete (updateContext data s.ctx) .ok s)
  else .refused .totalLengthOverflow

/-! ## The streaming form (`41_update.md` R121, informative) -/

/-- Phase 2: whole blocks straight from `data`, as long as 16 bytes are left. -/
def streamBlocks : Nat → Vector Word 4 → List Byte → Vector Word 4 × List Byte
  | 0, L, data => (L, data)
  | fuel + 1, L, data =>
    if Config.BLOCK ≤ data.length then
      streamBlocks fuel (blockMix L (data.take Config.BLOCK)) (data.drop Config.BLOCK)
    else (L, data)

/-- Byte by byte writes of `bytes` to the slots from `a` on (phases 0 and 3). -/
def stash (m : Memory) (a : Nat) : List Byte → Memory
  | [] => m
  | b :: bytes => stash (m.write1 a b) (a + 1) bytes

/-- `UPDATE'` (`41_update.md` R121): the three-phase form a datapath takes. The claim that it reaches the
state of `updateContext` is an obligation. -/
def updateStreaming (data : List Byte) (c : Context) : Context :=
  let total := c.totalLength + BitVec.ofNat 64 data.length
  if c.pcount + data.length < Config.BLOCK then
    { c with pending := stash c.pending c.pcount data, totalLength := total }
  else
    let fill := if 0 < c.pcount then Config.BLOCK - c.pcount else 0
    let lanes := if 0 < c.pcount then blockMix c.lanes (c.pending ++ data.take fill) else c.lanes
    let rest := streamBlocks data.length lanes (data.drop fill)
    { c with lanes := rest.1, pending := stash [] 0 rest.2, totalLength := total }

end Sys2Proof.Machine
end

