-- ==== Sys2Proof/Machine/Dispatch.lean ====
section
/-! DEFINITION. One arm for each command of `spec/opcode_table.json`. -/

namespace Sys2Proof.Machine

def exec (i : Instr) (s : State) : Host.Outcome State Fault Refusal :=
  match i with
  | .init seed => Sys2Proof.Machine.execInit seed s
  | .update data => Sys2Proof.Machine.execUpdate data s
  | .digest => Sys2Proof.Machine.execDigest s

end Sys2Proof.Machine
end

