-- ==== Sys2Proof/Machine/Fetch.lean ====
section
/-! DEFINITION. What `step` reads: the record at the byte offset (`30_encoding.md` R78), and placing one there. -/

namespace Sys2Proof.Machine

/-- The part of the program not yet executed. -/
def State.remaining (s : State) : List Byte := s.program.drop s.bo

/-- The record at the byte offset. -/
def State.fetch (s : State) : Decoded := decode s.remaining

/-- The program with `rec` written at the byte offset (zero bytes up to it where the program is shorter). -/
def placeRecord (rec program : List Byte) (bo : Nat) : List Byte :=
  program.take bo ++ List.replicate (bo - program.length) 0 ++ rec ++ program.drop (bo + rec.length)

/-- The run has ended: the list is exhausted (`10_state.md` R27, `70_reset_and_hazards.md` R215). -/
def State.finished (s : State) : Bool := decide (s.program.length ≤ s.bo)

end Sys2Proof.Machine
end

