-- ==== Sys2Proof/Machine/Step.lean ====
section
/-! DEFINITION. One step: execute the record at the byte offset and move past it (`10_state.md` R27,
`30_encoding.md` R77 to R79, `70_reset_and_hazards.md` R215). -/

namespace Sys2Proof.Machine

/-- One step of the machine. A command is one atomic step (`00_scope.md` R9). A reserved opcode is answered
with `IllegalCommand` (`30_encoding.md` R77). A program that ends inside a record is refused (R79). With no
byte left the engine is idle, awaiting a command, and nothing changes (`70_reset_and_hazards.md` R211,
`60_exceptions.md` R198; log entry 3). -/
def step (s : State) : Host.Outcome State Fault Refusal :=
  match s.fetch with
  | .command i len => exec i (s.advance len)
  | .reserved _ => .next ((s.advance 1).raise .illegalCommand)
  | .truncated => .refused (.truncatedRecord s.bo)
  | .empty => .next s

/-- `s` with the record of bits `w` presented as the next one, so that the next `step` executes it. -/
def State.withFetchWord (s : State) (nbits w : Nat) : State :=
  { s with program := placeRecord (recordOfWord nbits w) s.program s.bo }

end Sys2Proof.Machine
end

