-- ==== Sys2Proof/Machine/Run.lean ====
section
/-! DEFINITION. Programs: a finite list of commands, in list form and in byte form, and running them
(`10_state.md` R27, `30_encoding.md` R77 to R79, `70_reset_and_hazards.md` R215). -/

namespace Sys2Proof.Machine

/-- One entry of a program: a command, or a byte with a reserved opcode (`30_encoding.md` R77, R81). -/
inductive Item where
  | command (i : Instr)
  | reserved (op : Byte)
  deriving DecidableEq, Repr

/-- The entry has a record that decodes as it. -/
def Item.wf : Item → Bool
  | .command i => i.wf
  | .reserved op => reservedOpcode op

/-- The record of an entry (of a well-formed one: see `encode`, log entry 12). -/
def Item.bytes : Item → List Byte
  | .command i => encode i
  | .reserved op => [op]

/-- The byte form of a program: its records one after another, no padding (`30_encoding.md` R78). -/
def programBytes (items : List Item) : List Byte := items.flatMap Item.bytes

/-- What one entry does: a command its meaning, a reserved opcode the error response (R77). -/
def execItem : Item → State → Host.Outcome State Fault Refusal
  | .command i, s => exec i s
  | .reserved _, s => .next (s.raise .illegalCommand)

/-- Go on with the next state, or stop as the step did. -/
def andThen (o : Host.Outcome State Fault Refusal) (f : State → Host.Outcome State Fault Refusal) :
    Host.Outcome State Fault Refusal :=
  match o with
  | .next s => f s
  | .fault r => .fault r
  | .refused r => .refused r

/-- A run of a program in list form: its entries in list order, one step each; refused if any step is
(`70_reset_and_hazards.md` R215). -/
def runItems : List Item → State → Host.Outcome State Fault Refusal
  | [], s => .next s
  | item :: items, s => andThen (execItem item s) (runItems items)

/-- `k` steps of the machine, stopping at the first that does not complete. -/
def runSteps : Nat → State → Host.Outcome State Fault Refusal
  | 0, s => .next s
  | k + 1, s => andThen (step s) (runSteps k)

/-- A run of commands only. -/
def runCommands (cmds : List Instr) (s : State) : Host.Outcome State Fault Refusal :=
  runItems (cmds.map .command) s

/-- A program read from bytes: its entries, and the offset of a truncated record at its end, if there is one. -/
structure DecodedProgram where
  items : List Item
  truncatedAt : Option Nat
  deriving DecidableEq, Repr

/-- Put one entry in front of a decoded program. -/
def DecodedProgram.push (item : Item) (p : DecodedProgram) : DecodedProgram :=
  { p with items := item :: p.items }

/-- Decode records from offset `bo` on (R77 to R79); `fuel` bounds the number of records. -/
def decodeFrom : Nat → Nat → List Byte → DecodedProgram
  | 0, _, _ => ⟨[], none⟩
  | fuel + 1, bo, bytes =>
    match decode bytes with
    | .empty => ⟨[], none⟩
    | .truncated => ⟨[], some bo⟩
    | .command i len => (decodeFrom fuel (bo + len) (bytes.drop len)).push (.command i)
    | .reserved op => (decodeFrom fuel (bo + 1) (bytes.drop 1)).push (.reserved op)

/-- Decode a whole program: decoding starts at offset 0 (`30_encoding.md` R78); every record has at least one
byte, so as many records as there are bytes are enough. -/
def decodeProgram (bytes : List Byte) : DecodedProgram := decodeFrom bytes.length 0 bytes

/-- The host presents a program to the engine as it stands: the harness starts at its first byte, with no
command executed and no response yet (`10_state.md` R27). -/
def State.load (bytes : List Byte) (s : State) : State :=
  { s with program := bytes, bo := 0, ci := 0, responses := [] }

/-- A run of a byte-form program: refused, naming the offset, if the program ends in a truncated record
(`30_encoding.md` R79, `70_reset_and_hazards.md` R215), else one step for each of its entries from the given
state, which moves `bo` over the whole of it (`10_state.md` R27). -/
def runProgram (bytes : List Byte) (s : State) : Host.Outcome State Fault Refusal :=
  match (decodeProgram bytes).truncatedAt with
  | some offset => .refused (.truncatedRecord offset)
  | none => runSteps (decodeProgram bytes).items.length (s.load bytes)

/-- The responses of the commands executed between two states of one engine, in command order. -/
def newResponses (s t : State) : List Response := t.responses.drop s.responses.length

end Sys2Proof.Machine
end

