-- ==== Sys2Proof/Machine/Pseudo.lean ====
section
/-! DEFINITION. The pseudo-instructions and their expansions (`30_encoding.md` R82 to R85, `43_oneshot.md`
R160, R161). They have no records of their own. -/

namespace Sys2Proof.Machine

/-- The pseudo-instructions; there are no others (`30_encoding.md` R85). `UPDATEV` takes a flat list, so a
nested one cannot be written (`43_oneshot.md` R161). -/
inductive Pseudo where
  /-- `INIT` with no operand (R82). -/
  | initDefault
  /-- `HASH data [, seed]` (R83). -/
  | hash (data : List Byte) (seed : Option Word)
  /-- `UPDATEV (f1, ..., fk)` (R84). -/
  | updatev (fragments : List (List Byte))
  deriving DecidableEq, Repr

/-- The commands of `INIT [seed]` (R82). -/
def initCommand (seed : Option Word) : Instr := .init (seed.getD Config.DEFAULT_SEED)

/-- The commands a pseudo-instruction stands for (R82 to R84). -/
def Pseudo.expand : Pseudo → List Instr
  | .initDefault => [initCommand none]
  | .hash data seed => [initCommand seed, .update data, .digest]
  | .updatev fragments => fragments.map .update

end Sys2Proof.Machine
end

