-- ==== Sys2Proof/Machine/Adapter.lean ====
section
/-! DEFINITION. The call layer (`30_encoding.md` R70 (1)): the adapter that checks a call's arguments and
either rejects it, with no command issued, or turns it into commands (`40_init.md` R103, `41_update.md` R119,
R120, `43_oneshot.md` R160, R161, R170, `60_exceptions.md` R181 to R184, R188). -/

namespace Sys2Proof.Machine

/-- An argument as a dynamically typed host may give it (log entry 15). -/
inductive Value where
  /-- A byte sequence. -/
  | bytes (b : List Byte)
  /-- Text with no byte conversion; never silently encoded (R182). -/
  | text (chars : List Char)
  /-- An integer of any size and sign. -/
  | int (z : Int)
  /-- A number that is no integer, such as 1.5. -/
  | nonIntegral
  /-- Any other value that is neither a number nor a sequence. -/
  | object
  /-- A sequence of values: of byte sequences, it is a fragment sequence (R120). -/
  | seq (items : List Value)
  deriving Repr

/-- A call (R70 (1)); `none` is an argument not given. -/
inductive Call where
  | construct (seed : Option Value)
  | update (data : Option Value)
  | digest
  | hash (data : Option Value) (seed : Option Value)
  deriving Repr

/-- The seed of a call: 0 if none is given (`40_init.md` R104), an integer in 0..2^32-1 as it is, anything
else `InvalidSeed`: never wrapped (`40_init.md` R103, `60_exceptions.md` R183). -/
def checkSeed : Option Value → Except ErrorKind Word
  | none => .ok Config.DEFAULT_SEED
  | some (.int z) => if 0 ≤ z ∧ z < 2 ^ 32 then .ok (BitVec.ofNat 32 z.toNat) else .error .invalidSeed
  | some _ => .error .invalidSeed

/-- A byte sequence, and nothing else. -/
def Value.asBytes : Value → Option (List Byte)
  | .bytes b => some b
  | _ => none

/-- All fragments, when every one is a byte sequence: one level only (`41_update.md` R120). -/
def allBytes : List Value → Option (List (List Byte))
  | [] => some []
  | v :: vs =>
    match v.asBytes, allBytes vs with
    | some b, some bs => some (b :: bs)
    | _, _ => none

/-- The data of a call as fragments, the whole of it checked before any command is issued (`41_update.md`
R119, R120, `60_exceptions.md` R182, R184). -/
def checkData : Option Value → Except ErrorKind (List (List Byte))
  | none => .error .missingArgument
  | some (.bytes b) => .ok [b]
  | some (.seq vs) =>
    match allBytes vs with
    | some fragments => .ok fragments
    | none => .error .invalidArgumentType
  | some _ => .error .invalidArgumentType

/-- Data longer than one record can carry is split into several (`30_encoding.md` R73, `70_reset_and_hazards.md`
R213 H8). `fuel` bounds the number of pieces. -/
def splitData : Nat → List Byte → List (List Byte)
  | 0, data => [data]
  | fuel + 1, data =>
    if data.length < 2 ^ Config.LENW then [data]
    else data.take (2 ^ Config.LENW - 1) :: splitData fuel (data.drop (2 ^ Config.LENW - 1))

/-- The `UPDATE` commands of one fragment; one where its length fits a record. -/
def updateCommands (data : List Byte) : List Instr := (splitData data.length data).map .update

/-- The commands of a fragment sequence, in order (`41_update.md` R120). -/
def fragmentCommands (fragments : List (List Byte)) : List Instr := fragments.flatMap updateCommands

/-- The checks of a one-shot call; `order` says which error is reported when both apply (`60_exceptions.md` R188). -/
def checkHash (order : Config.ErrOrder) (data seed : Option Value) :
    Except ErrorKind (List (List Byte) × Word) :=
  match order, checkData data, checkSeed seed with
  | _, .ok fragments, .ok s => .ok (fragments, s)
  | _, .error e, .ok _ => .error e
  | _, .ok _, .error e => .error e
  | .dataFirst, .error e, .error _ => .error e
  | .seedFirst, .error _, .error e => .error e

/-- The commands of a call, or the error it is rejected with. All checks come first (`43_oneshot.md` R160). -/
def callCommands (order : Config.ErrOrder) : Call → Except ErrorKind (List Instr)
  | .construct seed =>
    match checkSeed seed with
    | .ok s => .ok [.init s]
    | .error e => .error e
  | .update data =>
    match checkData data with
    | .ok fragments => .ok (fragmentCommands fragments)
    | .error e => .error e
  | .digest => .ok [.digest]
  | .hash data seed =>
    match checkHash order data seed with
    | .ok (fragments, s) => .ok (.init s :: fragmentCommands fragments ++ [.digest])
    | .error e => .error e

/-- What a call answers its caller when its commands have run: the response of the last one, or plain success
where it issued none (`43_oneshot.md` R161). -/
def callAnswer (cmds : List Instr) (t : State) : Response :=
  match cmds with
  | [] => .ok
  | _ => t.responses.getLast?.getD .ok

/-- The outcome of a call: an answer for the caller and the machine after it, or the refusal of a command. -/
inductive CallOutcome where
  | answered (r : Response) (t : State)
  | stopped (o : Host.Outcome State Fault Refusal)
  deriving Repr

/-- A call on a machine. A rejected call issues no command: the answer is the error and the machine is as it
was (`60_exceptions.md` R180, R187; log entry 17). -/
def performCall (order : Config.ErrOrder) (call : Call) (s : State) : CallOutcome :=
  match callCommands order call with
  | .error e => .answered (.error e) s
  | .ok cmds =>
    match runCommands cmds s with
    | .next t => .answered (callAnswer cmds t) t
    | stop => .stopped stop

end Sys2Proof.Machine
end

