-- ==== Sys2Proof/Machine/Asm.lean ====
section
/-! DEFINITION. The spec's assembler (`30_encoding.md` R81 to R85): a line of a listing, its reading from
characters, and the record bytes it stands for. The assembler is on the host's side; it is where a text
literal becomes bytes (`20_memory.md` R51). What R81 leaves open of the layout is log entry 18. -/

namespace Sys2Proof.Machine.Asm

/-- What a line asks for (R81 to R85). -/
inductive Stmt where
  | command (i : Instr)
  | pseudo (p : Pseudo)
  /-- `.byte 0xhh`: one raw byte in the record stream. -/
  | byte (b : Byte)
  deriving DecidableEq, Repr

/-- A line: the engine it is for, if named; its statement, if any; the digest written after `->`. -/
structure Line where
  engine : Option (List Char)
  stmt : Option Stmt
  expected : Option Nat
  deriving DecidableEq, Repr

/-- The commands a statement stands for (R82 to R84); a raw byte is none of them. -/
def Stmt.commands : Stmt → List Instr
  | .command i => [i]
  | .pseudo p => p.expand
  | .byte _ => []

/-- Every command of the statement has a record: no literal has more than 2^32-1 bytes (R73). DESIGN CHOICE (log
entry 18): the assembler rejects a line with a longer literal, it does not split it; to write several `UPDATE`s
is the listing's part (`70_reset_and_hazards.md` R213 H8). -/
def Stmt.wf (stmt : Stmt) : Bool := stmt.commands.all Instr.wf

/-- The bytes a statement stands for. Meant for a statement with `Stmt.wf`, the only kind `parseLine` reads: the
bytes of another are no record stream of the spec (see `encode`, log entries 12 and 18). -/
def Stmt.bytes : Stmt → List Byte
  | .byte b => [b]
  | stmt => stmt.commands.flatMap encode

/-! ## Characters -/

/-- The double quote. -/
def quoteChar : Char := Char.ofNat 34

def isBlank (c : Char) : Bool := c == ' ' || c == '\t'

def skip (cs : List Char) : List Char := cs.dropWhile isBlank

def isNameChar (c : Char) : Bool := c.isAlphanum || c == '_' || c == '.'

/-- The value of a digit in `base` (10 or 16). -/
def digit (base : Nat) (c : Char) : Option Nat :=
  let v :=
    if '0' ≤ c ∧ c ≤ '9' then some (c.toNat - 48)
    else if 'a' ≤ c ∧ c ≤ 'f' then some (c.toNat - 87)
    else if 'A' ≤ c ∧ c ≤ 'F' then some (c.toNat - 55)
    else none
  v.bind fun d => if d < base then some d else none

/-- Digits as long as there are any, onto `acc`. -/
def digits (base : Nat) : Nat → List Char → Nat × List Char
  | acc, [] => (acc, [])
  | acc, c :: cs =>
    match digit base c with
    | some d => digits base (acc * base + d) cs
    | none => (acc, c :: cs)

/-- At least one digit in `base`. -/
def someDigits (base : Nat) : List Char → Option (Nat × List Char)
  | [] => none
  | c :: cs => (digit base c).map fun d => digits base d cs

/-- A decimal or 0x-hex number (R81). -/
def number : List Char → Option (Nat × List Char)
  | '0' :: 'x' :: cs => someDigits 16 cs
  | cs => someDigits 10 cs

/-- A text literal after its opening quote: ASCII bytes only, no terminator (R81). -/
def textBytes : List Char → Option (List Byte × List Char)
  | [] => none
  | c :: cs =>
    if c = quoteChar then some ([], cs)
    else if c.toNat < 128 then (textBytes cs).map fun r => (BitVec.ofNat 8 c.toNat :: r.1, r.2)
    else none

/-- Hex pairs after the opening quote, in stream order (R81). -/
def hexBytes : List Char → Option (List Byte × List Char)
  | [] => none
  | [c] => if c = quoteChar then some ([], []) else none
  | c :: d :: cs =>
    if c = quoteChar then some ([], d :: cs)
    else if isBlank c then hexBytes (d :: cs)
    else
      match digit 16 c, digit 16 d with
      | some h, some l => (hexBytes cs).map fun r => (BitVec.ofNat 8 (16 * h + l) :: r.1, r.2)
      | _, _ => none

/-- A byte-sequence literal: text or hex pairs (R81). -/
def dataLit : List Char → Option (List Byte × List Char)
  | 'x' :: q :: cs => if q = quoteChar then hexBytes cs else none
  | q :: cs => if q = quoteChar then textBytes cs else none
  | [] => none

/-- The rest of a fragment list after a fragment (R84): a flat list, one literal each. -/
def moreFragments : Nat → List Char → Option (List (List Byte) × List Char)
  | 0, _ => none
  | fuel + 1, cs =>
    match skip cs with
    | ')' :: rest => some ([], rest)
    | ',' :: rest =>
      match dataLit (skip rest) with
      | some (b, rest') => (moreFragments fuel rest').map fun r => (b :: r.1, r.2)
      | none => none
    | _ => none

/-- A fragment list `(f1, ..., fk)`, `k >= 0` (R84). -/
def fragments : List Char → Option (List (List Byte) × List Char)
  | '(' :: cs =>
    match skip cs with
    | ')' :: rest => some ([], rest)
    | cs' =>
      match dataLit cs' with
      | some (b, rest) => (moreFragments rest.length rest).map fun r => (b :: r.1, r.2)
      | none => none
  | _ => none

/-- A seed, 0..4294967295 (R81). -/
def seedLit (cs : List Char) : Option (Word × List Char) :=
  match number cs with
  | some (n, rest) => if n < 2 ^ 32 then some (BitVec.ofNat 32 n, rest) else none
  | none => none

/-! ## Lines -/

/-- Nothing more on the line but a comment (R81). -/
def atEnd (cs : List Char) : Bool :=
  match skip cs with
  | [] => true
  | c :: _ => c == ';'

/-- The end of a line, where `-> value` may stand before the comment. R81 gives `->` for `DIGEST`; that it is read
after any statement, the operand-less `INIT` among them, and has no effect on the bytes, is a DESIGN CHOICE (log
entry 18). -/
def lineEnd (engine : Option (List Char)) (stmt : Stmt) (cs : List Char) : Option Line :=
  match skip cs with
  | '-' :: '>' :: rest =>
    match number (skip rest) with
    | some (v, rest') => if atEnd rest' then some ⟨engine, some stmt, some v⟩ else none
    | none => none
  | cs' => if atEnd cs' then some ⟨engine, some stmt, none⟩ else none

/-- The operand of `.byte`. R81 gives the form `0x<hh>` only; that any decimal or 0x-hex number below 256 is
read as well is a DESIGN CHOICE (log entry 18). -/
def byteLit (cs : List Char) : Option (Byte × List Char) :=
  match number cs with
  | some (n, rest) => if n < 256 then some (BitVec.ofNat 8 n, rest) else none
  | none => none

/-- The operands of a mnemonic (R81 to R84), data literals of any length; `statement` rejects what no record can
hold. `INIT` without a seed in range is read as the operand-less `INIT` (R82, `40_init.md` R104), and the line is
rejected by `lineEnd` if a wrong operand is left over. -/
def operands (name : List Char) (cs : List Char) : Option (Stmt × List Char) :=
  if name = ['I', 'N', 'I', 'T'] then
    match seedLit cs with
    | some (v, rest) => some (.command (.init v), rest)
    | none => some (.pseudo .initDefault, cs)
  else if name = ['U', 'P', 'D', 'A', 'T', 'E'] then
    (dataLit cs).map fun r => (.command (.update r.1), r.2)
  else if name = ['D', 'I', 'G', 'E', 'S', 'T'] then some (.command .digest, cs)
  else if name = ['H', 'A', 'S', 'H'] then
    match dataLit cs with
    | some (b, rest) =>
      match skip rest with
      | ',' :: rest' => (seedLit (skip rest')).map fun r => (.pseudo (.hash b (some r.1)), r.2)
      | _ => some (.pseudo (.hash b none), rest)
    | none => none
  else if name = ['U', 'P', 'D', 'A', 'T', 'E', 'V'] then
    (fragments cs).map fun r => (.pseudo (.updatev r.1), r.2)
  else if name = ['.', 'b', 'y', 't', 'e'] then
    (byteLit cs).map fun r => (.byte r.1, r.2)
  else none

/-- A statement and the end of its line; none where a literal is longer than a record can hold (`Stmt.wf`). -/
def statement (engine : Option (List Char)) (name cs : List Char) : Option Line :=
  match operands name (skip cs) with
  | some (stmt, rest) => if stmt.wf then lineEnd engine stmt rest else none
  | none => none

/-- One line of a listing (R81); none where the assembler rejects it. -/
def parseLine (cs : List Char) : Option Line :=
  if atEnd cs then some ⟨none, none, none⟩
  else
    let name := (skip cs).takeWhile isNameChar
    let rest := (skip cs).dropWhile isNameChar
    match rest with
    | ':' :: rest' =>
      let name' := (skip rest').takeWhile isNameChar
      statement (some name) name' ((skip rest').dropWhile isNameChar)
    | _ => statement none name rest

/-- The record stream of one engine (none: the lines that name no engine): the bytes of its lines in order. -/
def assemble (engine : Option (List Char)) (lines : List Line) : List Byte :=
  (lines.filter fun l => l.engine == engine).flatMap fun l =>
    match l.stmt with
    | some stmt => stmt.bytes
    | none => []

end Sys2Proof.Machine.Asm
end

