-- ==== Sys2Proof/Machine/Hash.lean ====
section
/-! DEFINITION. The engine as one pure function of the seed and the stream (`43_oneshot.md` R162, R163). -/

namespace Sys2Proof.Machine

/-- The bytes a command adds to the stream. -/
def streamBytes : Instr → List Byte
  | .init _ => []
  | .update data => data
  | .digest => []

/-- The stream of a command list with no `INIT` in it: the data of its `UPDATE`s in order (`00_scope.md` R16). -/
def streamOf (cmds : List Instr) : List Byte := cmds.flatMap streamBytes

/-- The command starts a new stream. -/
def isInit : Instr → Bool
  | .init _ => true
  | .update _ => false
  | .digest => false

/-- `H(s, S)` (`43_oneshot.md` R162), which the spec defines for `len(S) < 2^64`. -/
def H (s : Word) (S : List Byte) : Word :=
  let K := S.length / Config.BLOCK
  let L := mixBlocks K (Config.seedLanes s) S
  let acc := if S.length < Config.BLOCK then s + Config.PRIME5 else Config.merge L
  avalanche (tail (acc + BitVec.ofNat 32 S.length) (S.drop (Config.BLOCK * K)))

/-- The context after `INIT s` and any `UPDATE`s whose data concatenate to `S` (`43_oneshot.md` R163). -/
def streamContext (s : Word) (S : List Byte) : Context where
  seed := s
  lanes := mixBlocks (S.length / Config.BLOCK) (Config.seedLanes s) S
  pending := S.drop (Config.BLOCK * (S.length / Config.BLOCK))
  totalLength := BitVec.ofNat 64 S.length

end Sys2Proof.Machine
end

