-- ==== Sys2Proof/Machine/System.lean ====
section
/-! DEFINITION. Several engines side by side: an indexed family of machines that share nothing (`10_state.md`
R32, `60_exceptions.md` R196, `43_oneshot.md` R167), and commands that reach them with no order given
(`20_memory.md` R58 (4), R62). -/

namespace Sys2Proof.Machine

/-- `n` engines, each with its own harness. -/
abbrev System (n : Nat) := Vector State n

/-- A command or illegal byte for one engine (the engine-tagged commands of `70_reset_and_hazards.md` R215). -/
structure Tagged (n : Nat) where
  engine : Fin n
  item : Item
  deriving DecidableEq, Repr

/-- Every engine in reset state, the start of a run unless said otherwise (`70_reset_and_hazards.md` R215). -/
def System.reset (n : Nat) : System n := Vector.replicate n State.reset

/-- A response and the engine it is from. -/
abbrev TaggedResponse (n : Nat) := Fin n × Response

/-- The result of a run of a system: the final state of every engine together with the responses of all of
them in command order; or it is refused and has no result (`70_reset_and_hazards.md` R215). -/
inductive SystemOutcome (n : Nat) where
  | next (sys : System n) (responses : List (TaggedResponse n))
  | refused (r : Refusal)
  deriving DecidableEq

/-- The responses of earlier commands come first. -/
def SystemOutcome.after {n : Nat} (earlier : List (TaggedResponse n)) : SystemOutcome n → SystemOutcome n
  | .next sys responses => .next sys (earlier ++ responses)
  | .refused r => .refused r

/-- Engine `k` executes one entry; no other engine is read or written (`10_state.md` R32). -/
def System.issue {n : Nat} (e : Tagged n) (sys : System n) : SystemOutcome n :=
  match execItem e.item sys[e.engine] with
  | .next t => .next (sys.set e.engine t) ((newResponses sys[e.engine] t).map fun r => (e.engine, r))
  | .fault r => nomatch r
  | .refused r => .refused r

/-- A run of a serial interleaving: the entries one after another in list order, the responses in that order
(`20_memory.md` R58, `70_reset_and_hazards.md` R215). -/
def System.run {n : Nat} : List (Tagged n) → System n → SystemOutcome n
  | [], sys => .next sys []
  | e :: es, sys =>
    match sys.issue e with
    | .next sys' responses => (System.run es sys').after responses
    | .refused r => .refused r

/-- The responses of one engine, in their order. -/
def responsesOf {n : Nat} (k : Fin n) (rs : List (TaggedResponse n)) : List Response :=
  (rs.filter fun r => r.1 = k).map Prod.snd

/-- The entries of one engine, in their order. -/
def entriesOf {n : Nat} (k : Fin n) (es : List (Tagged n)) : List Item :=
  (es.filter fun e => e.engine = k).map Tagged.item

/-- Entries that reach the system together, no order between them given: refused if two are for one engine
(`20_memory.md` R62), else each takes effect, in whatever order (R58 (4)); the responses are listed in the order
the entries are (log entry 16). -/
def System.issueTogether {n : Nat} (es : List (Tagged n)) (sys : System n) : SystemOutcome n :=
  match es.find? fun e => decide (1 < (entriesOf e.engine es).length) with
  | some e => .refused (.unserialisedAccess e.engine)
  | none => System.run es sys

end Sys2Proof.Machine
end

