-- ==== Sys2Proof/Safety.lean ====
section
/-! DEFINITION. What the claims are stated in: the invariants of the spec (`10_state.md` R26, R30, R31,
`43_oneshot.md` R163) and what a run is that ends without a refusal (`70_reset_and_hazards.md` R215). -/

namespace Sys2Proof.Machine

/-- The invariants that tie the items of a context together (`10_state.md` section 4). -/
structure Context.Inv (c : Context) : Prop where
  /-- R26: `pcount <= 15`. -/
  pending_wf : c.pending.wf
  /-- R30: `pcount = total_length mod 16`. -/
  pcount_eq : c.pcount = c.totalLength.toNat % Config.BLOCK
  /-- R31: no block consumed while `total_length < 16`. -/
  lanes_short : c.totalLength.toNat < Config.BLOCK → c.lanes = Config.seedLanes c.seed

/-- The invariants of an engine with its harness: those of the context, the byte offset inside the program,
one response for each command executed (`10_state.md` R27, `30_encoding.md` R80). -/
structure State.Inv (s : State) : Prop where
  ctx : s.ctx.Inv
  bo_le : s.bo ≤ s.program.length
  responses_length : s.responses.length = s.ci

/-- The context is the one the spec gives for its seed and some stream of bytes (`43_oneshot.md` R163). -/
def Context.OnStream (c : Context) : Prop :=
  ∃ S : List Byte, S.length < 2 ^ Config.TLW ∧ c = streamContext c.seed S

/-- `k` steps end without a refusal. -/
def RunsTo (k : Nat) (s t : State) : Prop := runSteps k s = .next t

/-- A byte-form program is whole: it does not end inside a record (`30_encoding.md` R79). -/
def wholeProgram (bytes : List Byte) : Bool := (decodeProgram bytes).truncatedAt.isNone

end Sys2Proof.Machine
end

