-- ==== Sys2Proof/Certificates/Slice0/Obligations.lean ====
section
/-! DEFINITION. The statements for the provers, from the numbered rules of the spec. Where a statement rests on
a sentence the spec marks as its own decision, inference or general knowledge, its docstring says so. -/

section

open Sys2Proof Sys2Proof.Machine

/-! ## Reset and invariants -/

/-- The table of `10_state.md` R33, and that `INIT 0` gives the same context. That reset is `INIT 0` is the
spec's decision D2; the harness's values (no program, `bo` and `ci` 0, no response) are log entry 6. -/
def Obligations.ResetValues : Prop :=
  State.reset.ctx.seed = 0 ∧
  State.reset.ctx.lanes = #v[0x24234428, 0x85EBCA77, 0x00000000, 0x61C8864F] ∧
  State.reset.ctx.pending = [] ∧ State.reset.ctx.pcount = 0 ∧ State.reset.ctx.totalLength = 0 ∧
  State.reset.program = [] ∧ State.reset.bo = 0 ∧ State.reset.ci = 0 ∧ State.reset.responses = [] ∧
  ∀ s : State, ∃ t, exec (.init 0) s = .next t ∧ t.ctx = State.reset.ctx

/-- Reset between commands: the context of `INIT 0`, no response, the harness as it was (`70_reset_and_hazards.md`
R210; decision D2, log entry 7). -/
def Obligations.ResetAction : Prop :=
  ∀ s : State, (∃ t, exec (.init 0) s = .next t ∧ s.applyReset.ctx = t.ctx) ∧
    s.applyReset.responses = s.responses ∧ s.applyReset.ci = s.ci ∧ s.applyReset.bo = s.bo ∧
    s.applyReset.program = s.program

/-- The invariants of `10_state.md` section 4 hold after reset, which is on the empty stream. -/
def Obligations.ResetMeetsInvariants : Prop :=
  State.reset.Inv ∧ State.reset.ctx.OnStream

/-- Every step keeps the invariants (`10_state.md` R26, R30, R31; R30 and R31 are marked derived there), from
every state that has them. -/
def Obligations.StepKeepsInv : Prop :=
  ∀ s t : State, s.Inv → step s = .next t → t.Inv

/-- Every step leads from a context that is the one of some stream to another such (`43_oneshot.md` R163,
marked derived there). -/
def Obligations.StepKeepsOnStream : Prop :=
  ∀ s t : State, s.ctx.OnStream → step s = .next t → t.ctx.OnStream

/-- A context that is the one of some stream meets the pending bound, has `pcount = total_length mod 16`, and
its seeding lanes while short (`10_state.md` R26, R30, R31). -/
def Obligations.OnStreamMeetsInv : Prop :=
  ∀ c : Context, c.OnStream → c.Inv

/-! ## INIT -/

/-- `INIT v` completes in every state, writes every item of the context and one success response, and leaves the
harness's program and offset alone (`40_init.md` R100). The four additive constants are the spec's general
knowledge (`40_init.md` R101, D13). -/
def Obligations.InitCompletes : Prop :=
  ∀ (v : Word) (s : State),
    exec (.init v) s = .next
      { ctx :=
          { seed := v
            lanes := #v[v + Config.PRIME1 + Config.PRIME2, v + Config.PRIME2, v, v - Config.PRIME1]
            pending := []
            totalLength := 0 }
        program := s.program
        bo := s.bo
        ci := s.ci + 1
        responses := s.responses ++ [.ok] }

/-- Nothing of the state before influences the context `INIT` leaves, so `INIT v` then `INIT w` is `INIT w`
alone (`40_init.md` R102 (c), decision D17, and (d), marked derived). -/
def Obligations.InitForgets : Prop :=
  ∀ (v w : Word) (s s' : State), ∃ t u u', exec (.init v) s = .next t ∧ exec (.init w) t = .next u ∧
    exec (.init w) s' = .next u' ∧ u.ctx = u'.ctx

/-- `seed` is written by `INIT` only, no command writes the program or the offset, every command answers with
one response and moves the command index by one, and `DIGEST` writes nothing of the context (`10_state.md` R22,
R27, `30_encoding.md` R80, `42_digest.md` R130). -/
def Obligations.CommandFrame : Prop :=
  ∀ (i : Instr) (s t : State), exec i s = .next t →
    (isInit i = false → t.ctx.seed = s.ctx.seed) ∧
    (i = .digest → t.ctx = s.ctx) ∧
    t.program = s.program ∧ t.bo = s.bo ∧ t.ci = s.ci + 1 ∧ ∃ r, t.responses = s.responses ++ [r]

/-! ## UPDATE -/

/-- `UPDATE data` as the pseudocode of `41_update.md` R110 has it: under the length bound it completes with the
blocks of `pending ++ data` folded into the lanes in ascending order, the remainder pending, the length grown by
`n`, the seed, program and offset as before and one success response; outside the bound it is refused
(`10_state.md` R23, decision D10). -/
def Obligations.UpdateCompletes : Prop :=
  ∀ (data : List Byte) (s : State),
    (s.ctx.totalLength.toNat + data.length < 2 ^ 64 → ∃ t, exec (.update data) s = .next t ∧
      t.ctx.seed = s.ctx.seed ∧
      t.ctx.lanes = (List.range ((s.ctx.pending ++ data).length / 16)).foldl
        (fun L j => blockMix L (((s.ctx.pending ++ data).drop (16 * j)).take 16)) s.ctx.lanes ∧
      t.ctx.pending = (s.ctx.pending ++ data).drop (16 * ((s.ctx.pending ++ data).length / 16)) ∧
      t.ctx.pcount = (s.ctx.pcount + data.length) % 16 ∧
      t.ctx.totalLength.toNat = s.ctx.totalLength.toNat + data.length ∧
      t.program = s.program ∧ t.bo = s.bo ∧ t.ci = s.ci + 1 ∧ t.responses = s.responses ++ [.ok]) ∧
    (2 ^ 64 ≤ s.ctx.totalLength.toNat + data.length → exec (.update data) s = .refused .totalLengthOverflow)

/-- The lanes after `UPDATE`, lane by lane: lane `i` is folded by `ROUND` over the little-endian words at
offsets `16*j + 4*i` of `pending ++ data`, and by nothing else (`41_update.md` R110, R112, R113,
`20_memory.md` R52). -/
def Obligations.UpdateLaneByLane : Prop :=
  ∀ (data : List Byte) (s t : State) (i : Fin 4), exec (.update data) s = .next t →
    t.ctx.lanes[i] = (List.range ((s.ctx.pcount + data.length) / 16)).foldl
      (fun a j => roundLane a (le32At (s.ctx.pending ++ data) (16 * j + 4 * i))) s.ctx.lanes[i]

/-- `total_length` grows by exactly `n`, however many blocks were consumed (`41_update.md` R115). -/
def Obligations.LengthAccounting : Prop :=
  ∀ (data : List Byte) (s t : State), exec (.update data) s = .next t →
    t.ctx.totalLength.toNat = s.ctx.totalLength.toNat + data.length

/-- A zero-length `UPDATE` always succeeds and changes nothing of the context (`41_update.md` R116). The premise is
the pending bound of `10_state.md` R26. -/
def Obligations.UpdateZeroLength : Prop :=
  ∀ s : State, s.ctx.pending.wf → ∃ t, exec (.update []) s = .next t ∧ t.ctx = s.ctx ∧
    t.responses = s.responses ++ [.ok]

/-- The buffer carry (`41_update.md` R114): `pending` holds the last `(pcount + n) mod 16` bytes and stays within
its bound; below 16 bytes the lanes are untouched and the data are appended; from 16 on, the first
`16 - pcount` bytes complete the carried block, further blocks come from `data` alone, and the rest of `data`
replaces the pending contents. -/
def Obligations.UpdateCarry : Prop :=
  ∀ (data : List Byte) (s : State), s.ctx.totalLength.toNat + data.length < 2 ^ 64 →
    ∃ t, exec (.update data) s = .next t ∧
      t.ctx.pcount = (s.ctx.pcount + data.length) % 16 ∧
      t.ctx.pending.wf ∧
      t.ctx.pending = (s.ctx.pending ++ data).drop
        (s.ctx.pcount + data.length - (s.ctx.pcount + data.length) % 16) ∧
      (s.ctx.pcount + data.length < 16 →
        t.ctx.lanes = s.ctx.lanes ∧ t.ctx.pending = s.ctx.pending ++ data) ∧
      (s.ctx.pcount ≤ 15 → 16 ≤ s.ctx.pcount + data.length →
        t.ctx.lanes = mixBlocks ((data.length - (16 - s.ctx.pcount)) / 16)
          (blockMix s.ctx.lanes (s.ctx.pending ++ data.take (16 - s.ctx.pcount)))
          (data.drop (16 - s.ctx.pcount)) ∧
        t.ctx.pending = data.drop (data.length - (s.ctx.pcount + data.length) % 16))

/-- The bytes `UPDATE` stores: slot `a` reads what `pending ++ data` has at `16*k + a`, `k` the complete blocks;
so while no block completes every valid slot reads as before (`41_update.md` R110, R114, `00_scope.md` R15). -/
def Obligations.UpdateStores : Prop :=
  ∀ (data : List Byte) (s t : State), exec (.update data) s = .next t →
    (∀ a, a < t.ctx.pcount → t.ctx.pending.read1 a =
      (s.ctx.pending ++ data).getD (16 * ((s.ctx.pcount + data.length) / 16) + a) 0) ∧
    (s.ctx.pcount + data.length < 16 →
      (∀ a, a < s.ctx.pcount → t.ctx.pending.read1 a = s.ctx.pending.read1 a) ∧
      ∀ k, k < data.length → t.ctx.pending.read1 (s.ctx.pcount + k) = data.getD k 0)

/-- `ROUND(a, w)` (`41_update.md` R111) with its corner cases and worked examples. The formula is the document's; the
four worked values rest on the values of `PRIME1` and `PRIME2`, which are the spec's general knowledge (decision D12,
log entry 9). -/
def Obligations.RoundFormula : Prop :=
  (∀ a w : Word, roundLane a w = rotl32 (a + w * Config.PRIME2) 13 * Config.PRIME1) ∧
  roundLane 0 0 = 0 ∧
  (∀ a : Word, roundLane a 0 = rotl32 a 13 * Config.PRIME1) ∧
  roundLane 0x24234428 0x6C6C6568 = 0x17B95C20 ∧ roundLane 0 1 = 0x8DF8C7AD ∧
  roundLane 1 0 = 0xEF362000 ∧ roundLane 0xFFFFFFFF 0xFFFFFFFF = 0xD3CFBEA2

/-- For a fixed word the round is a bijection of the lane (`42_digest.md` R142 (e), marked derived). -/
def Obligations.RoundBijective : Prop :=
  ∀ w : Word, Function.Bijective fun a => roundLane a w

/-- `BLOCK(L, B)` (`41_update.md` R112): lane `i` is the round of lane `i` and block word `i`; it depends on no
other lane and on bytes `4*i .. 4*i+3` of the block only. -/
def Obligations.BlockLanewise : Prop :=
  (∀ (L : Vector Word 4) (B : List Byte) (i : Fin 4),
    (blockMix L B)[i] = roundLane L[i] (le32At B (4 * i))) ∧
  (∀ (L L' : Vector Word 4) (B B' : List Byte) (i : Fin 4), L[i] = L'[i] →
    (∀ k, k < 4 → B.getD (4 * i + k) 0 = B'.getD (4 * i + k) 0) →
    (blockMix L B)[i] = (blockMix L' B')[i])

/-- `LE32` and its inverse `bytesLE32` (`00_scope.md` R14): the byte at the lowest offset is the least
significant, on reading and on writing. -/
def Obligations.LittleEndian : Prop :=
  (∀ (b : List Byte) (o : Nat) (h : o + 4 ≤ b.length), (le32At b o).toNat =
    b[o].toNat + 2 ^ 8 * b[o + 1].toNat + 2 ^ 16 * b[o + 2].toNat + 2 ^ 24 * b[o + 3].toNat) ∧
  (∀ v : Word, (bytesLE32 v).map BitVec.toNat =
    [v.toNat % 256, v.toNat / 2 ^ 8 % 256, v.toNat / 2 ^ 16 % 256, v.toNat / 2 ^ 24]) ∧
  (∀ v : Word, le32At (bytesLE32 v) 0 = v)

/-- The four words of a block (`41_update.md` R113, `20_memory.md` R52): word `i` is made of bytes
`4*i .. 4*i+3`, the first least significant, wherever the bytes of the block came from. -/
def Obligations.BlockWords : Prop :=
  (∀ (P D : List Byte) (i : Fin 4) (h : (P ++ D).length = 16),
    (blockWord (P ++ D) i).toNat = ((P ++ D)[4 * i.val]'(by omega)).toNat +
      2 ^ 8 * ((P ++ D)[4 * i.val + 1]'(by omega)).toNat + 2 ^ 16 * ((P ++ D)[4 * i.val + 2]'(by omega)).toNat +
      2 ^ 24 * ((P ++ D)[4 * i.val + 3]'(by omega)).toNat) ∧
  (List.finRange 4).map (blockWord [0, 1, 2, 3, 4, 5, 6, 7, 8, 9, 10, 11, 12, 13, 14, 15]) =
    [0x03020100, 0x07060504, 0x0B0A0908, 0x0F0E0D0C]

/-- `rotl32(x, r)`: bit `k` of `x` moves to bit `(k + r) mod 32` (`00_scope.md` R13; the definition of the rotation
is marked general knowledge). -/
def Obligations.RotateMovesBits : Prop :=
  ∀ (x : Word) (r k : Nat), 1 ≤ r → r ≤ 31 → k < 32 →
    (rotl32 x r).getLsbD ((k + r) % 32) = x.getLsbD k

/-- The three-phase streaming form reaches the state of the command's own form (`41_update.md` R121, marked
derived). The premise is the pending bound of `10_state.md` R26. -/
def Obligations.StreamingFormAgrees : Prop :=
  ∀ (data : List Byte) (c : Context), c.pending.wf → updateStreaming data c = updateContext data c

/-- Chunk invariance (`43_oneshot.md` R164): `UPDATE a; UPDATE b` and `UPDATE (a ++ b)` complete together and
lead from any state to the same context, not only the same digest (the stronger form, marked derived); past
the length bound both are refused, which is the spec's decision D10 (`10_state.md` R23, log entry 5). -/
def Obligations.ChunkInvariance : Prop :=
  ∀ (a b : List Byte) (s : State),
    (s.ctx.totalLength.toNat + (a ++ b).length < 2 ^ 64 →
      ∃ t u v, exec (.update a) s = .next t ∧ exec (.update b) t = .next u ∧
        exec (.update (a ++ b)) s = .next v ∧ u.ctx = v.ctx) ∧
    (2 ^ 64 ≤ s.ctx.totalLength.toNat + (a ++ b).length →
      runCommands [.update a, .update b] s = .refused .totalLengthOverflow ∧
      exec (.update (a ++ b)) s = .refused .totalLengthOverflow)

/-- `UPDATEV` of any flat fragment sequence has the effect of one `UPDATE` of the concatenation, and a `DIGEST` after
either answers the same (`43_oneshot.md` R161, R164, `30_encoding.md` R84). The premise on `pending` is the
bound of `10_state.md` R26, for the empty sequence. -/
def Obligations.FragmentsAsOne : Prop :=
  ∀ (fs : List (List Byte)) (s : State), s.ctx.pending.wf →
    s.ctx.totalLength.toNat + fs.flatten.length < 2 ^ 64 →
    ∃ t u, runCommands (Pseudo.updatev fs).expand s = .next t ∧ exec (.update fs.flatten) s = .next u ∧
      t.ctx = u.ctx ∧ digestValue t.ctx = digestValue u.ctx

/-! ## DIGEST -/

/-- `DIGEST` completes in every state, answers the value of its four stages and writes nothing of the context
(`42_digest.md` R130). -/
def Obligations.DigestCompletes : Prop :=
  ∀ s : State, exec .digest s = .next
    { s with
      ci := s.ci + 1
      responses := s.responses ++ [.digest (avalanche (tail (lenMix
        (start s.ctx.seed s.ctx.lanes s.ctx.totalLength) s.ctx.totalLength) s.ctx.pending))] }

/-- The stages with their constants (`42_digest.md` R131 to R135, R137; the numbers and the merge are the spec's
general knowledge, D11 to D16, D25): the short path below 16 bytes on the full 64-bit counter, the merge from 16
on, only the low 32 bits of the length added. -/
def Obligations.DigestStages : Prop :=
  (∀ (v : Word) (L : Vector Word 4) (n : Len64), n.toNat < 16 → start v L n = v + 374761393) ∧
  (∀ (v : Word) (L : Vector Word 4) (n : Len64), 16 ≤ n.toNat → start v L n =
    rotl32 L[0] 1 + rotl32 L[1] 7 + rotl32 L[2] 12 + rotl32 L[3] 18) ∧
  (∀ (acc : Word) (n : Len64), (lenMix acc n).toNat = (acc.toNat + n.toNat) % 2 ^ 32) ∧
  (∀ acc w : Word, tail4 acc w = rotl32 (acc + w * 3266489917) 17 * 668265263) ∧
  (∀ (acc : Word) (b : Byte), tail1 acc b = rotl32 (acc + BitVec.ofNat 32 b.toNat * 374761393) 11 * 2654435761) ∧
  (∀ h : Word, ∃ h1 h2, h1 = (h ^^^ (h >>> 15)) * 2246822519 ∧ h2 = (h1 ^^^ (h1 >>> 13)) * 3266489917 ∧
    avalanche h = h2 ^^^ (h2 >>> 16))

/-- `TAIL` folds every pending byte exactly once, in stream order: four bytes at a time as a little-endian word
while four are left, then one at a time (`42_digest.md` R136). -/
def Obligations.TailInStreamOrder : Prop :=
  (∀ (acc : Word) (b0 b1 b2 b3 : Byte) (P : Memory),
    tail acc (b0 :: b1 :: b2 :: b3 :: P) = tail (tail4 acc (le32 b0 b1 b2 b3)) P) ∧
  (∀ (acc : Word) (P : Memory), P.length < 4 → tail acc P = P.foldl tail1 acc)

/-- The avalanche is a bijection that takes 0 to 0 (`42_digest.md` R137, marked derived). -/
def Obligations.AvalancheBijective : Prop :=
  Function.Bijective avalanche ∧ avalanche 0 = 0

/-- The digest of the empty stream is `AVALANCHE(v +32 PRIME5)` directly after `INIT v`, and distinct seeds give
distinct ones (`42_digest.md` R139, the last marked derived). That it is 46947589 after reset with no `INIT` rests on
the spec's decision D2, reset being `INIT 0` (`70_reset_and_hazards.md` R211, log entry 6). -/
def Obligations.EmptyStreamDigest : Prop :=
  (∀ (v : Word) (s : State), ∃ t, runCommands [.init v, .digest] s = .next t ∧
    t.responses = s.responses ++ [.ok, .digest (avalanche (v + Config.PRIME5))]) ∧
  digestValue State.reset.ctx = 46947589 ∧
  (∀ v w : Word, digestValue (Context.seeded v) = digestValue (Context.seeded w) → v = w)

/-- `DIGEST` reads `seed` on the short path only and the lanes on the long path only (`42_digest.md` R130, R131). -/
def Obligations.DigestReads : Prop :=
  (∀ (c : Context) (v : Word), 16 ≤ c.totalLength.toNat → digestValue { c with seed := v } = digestValue c) ∧
  (∀ (c : Context) (L : Vector Word 4), c.totalLength.toNat < 16 →
    digestValue { c with lanes := L } = digestValue c)

/-- `DIGEST` is pure (`42_digest.md` R138): two in a row return the same value, and inserting or removing one
anywhere in a command sequence changes no state and no other response, nor whether the run is refused; so an
`UPDATE` after it continues the same stream. -/
def Obligations.DigestPure : Prop :=
  (∀ s : State, ∃ t u d, exec .digest s = .next t ∧ exec .digest t = .next u ∧
    t.responses = s.responses ++ [.digest d] ∧ u.responses = s.responses ++ [.digest d, .digest d]) ∧
  (∀ (xs ys : List Instr) (s u : State), runCommands (xs ++ ys) s = .next u →
    ∃ t d p q, runCommands (xs ++ .digest :: ys) s = .next t ∧ t.ctx = u.ctx ∧
      u.responses = p ++ q ∧ t.responses = p ++ .digest d :: q ∧ p.length = s.responses.length + xs.length) ∧
  (∀ (xs ys : List Instr) (s : State) (r : Refusal), runCommands (xs ++ ys) s = .refused r →
    runCommands (xs ++ .digest :: ys) s = .refused r)

/-! ## The engine as one function -/

/-- After `INIT v` and any commands but `INIT`, `UPDATE`s and `DIGEST`s in any order, the context is the one of the
whole stream and a `DIGEST` answers `H` of it (`43_oneshot.md` R162, R163, marked derived). -/
def Obligations.StreamCharacterisation : Prop :=
  ∀ (v : Word) (cmds : List Instr) (s : State), (∀ i ∈ cmds, isInit i = false) →
    (streamOf cmds).length < 2 ^ 64 →
    ∃ t, runCommands (.init v :: cmds ++ [.digest]) s = .next t ∧
      t.ctx = streamContext v (streamOf cmds) ∧
      t.responses.getLast? = some (.digest (H v (streamOf cmds)))

/-- `HASH` expands to three commands that answer success, success and `H(seed, data)`, seed 0 if omitted, from any
state (`43_oneshot.md` R160, `30_encoding.md` R83; on one context it overwrites it, decision D26). -/
def Obligations.HashValue : Prop :=
  ∀ (data : List Byte) (seed : Option Word) (s : State), data.length < 2 ^ 64 →
    ∃ t, runCommands (Pseudo.hash data seed).expand s = .next t ∧
      t.responses = s.responses ++ [.ok, .ok, .digest (H (seed.getD 0) data)] ∧
      t.ctx = streamContext (seed.getD 0) data

/-- For a stream shorter than one block distinct seeds give distinct digests (`43_oneshot.md` R168, marked
derived). -/
def Obligations.SeedSensitivityShort : Prop :=
  ∀ S : List Byte, S.length < 16 → Function.Injective fun v => H v S

/-- The two reference digests the source prints, and one published digest on the long path (`95_test_vectors.md`
V1, V2 and section 3; the last is the spec's general knowledge, G8). A sanity statement. -/
def Obligations.ReferenceDigests : Prop :=
  H 0 [] = 46947589 ∧ H 0 [0x68, 0x65, 0x6c, 0x6c, 0x6f] = 4211111929 ∧
  H 0 [0x4e, 0x6f, 0x62, 0x6f, 0x64, 0x79, 0x20, 0x69, 0x6e, 0x73, 0x70, 0x65, 0x63, 0x74, 0x73, 0x20, 0x74,
    0x68, 0x65, 0x20, 0x73, 0x70, 0x61, 0x6d, 0x6d, 0x69, 0x73, 0x68, 0x20, 0x72, 0x65, 0x70, 0x65, 0x74, 0x69,
    0x74, 0x69, 0x6f, 0x6e] = 0xE2293B2F

/-- The next context and the response of a command are a function of the context and the command alone
(`10_state.md` R29, `43_oneshot.md` R165). -/
def Obligations.DependsOnContextOnly : Prop :=
  ∀ (i : Instr) (s s' : State), s.ctx = s'.ctx →
    (∃ t t' r, exec i s = .next t ∧ exec i s' = .next t' ∧ t.ctx = t'.ctx ∧
      t.responses = s.responses ++ [r] ∧ t'.responses = s'.responses ++ [r]) ∨
    (∃ r, exec i s = .refused r ∧ exec i s' = .refused r)

/-- Every command succeeds in every state, an `UPDATE` provided the length bound holds: it completes and adds one
response, with status 0x00; no state refuses all commands, whatever was answered before (`60_exceptions.md` R186). -/
def Obligations.AlwaysValid : Prop :=
  ∀ (i : Instr) (s : State),
    (∀ data, i = .update data → s.ctx.totalLength.toNat + data.length < 2 ^ 64) →
    ∃ t r, exec i s = .next t ∧ t.responses = s.responses ++ [r] ∧ r.status = 0x00

/-! ## Encoding -/

/-- Records written out from `30_encoding.md` R72 to R74 decode to their commands, reserved and truncated ones do
not. A sanity statement (the encodings are the spec's decisions D5 to D8). -/
def Obligations.DecodeSamples : Prop :=
  decode [0x01, 0x78, 0x56, 0x34, 0x12] = .command (.init 0x12345678) 5 ∧
  decode [0x02, 0x05, 0x00, 0x00, 0x00, 0x68, 0x65, 0x6c, 0x6c, 0x6f] =
    .command (.update [0x68, 0x65, 0x6c, 0x6c, 0x6f]) 10 ∧
  decode [0x02, 0x00, 0x00, 0x00, 0x00, 0x03] = .command (.update []) 5 ∧
  decode [0x03, 0x03] = .command .digest 1 ∧
  decode [0xff, 0x03] = .reserved 0xff ∧ decode [0x00] = .reserved 0x00 ∧
  decode [0x01, 0x00, 0x00] = .truncated ∧
  decode [0x02, 0x05, 0x00, 0x00, 0x00, 0x68, 0x65] = .truncated

/-- Decoding the record of any well-formed command gives it back, with its length, whatever follows
(`30_encoding.md` R72 to R78, decisions D5, D6, D8). -/
def Obligations.DecodeEncode : Prop :=
  ∀ (i : Instr) (rest : List Byte), WellFormed i →
    decode (encode i ++ rest) = .command i (encode i).length

/-- Every record that decodes to a command is that command's one encoding (`30_encoding.md` R72 to R78, decisions
D5, D6, D8). -/
def Obligations.EncodeDecode : Prop :=
  ∀ (bytes : List Byte) (i : Instr) (len : Nat), decode bytes = .command i len →
    WellFormed i ∧ 0 < len ∧ len ≤ bytes.length ∧ bytes.take len = encode i

/-- Opcodes 0x00 and 0x04..0xFF: one byte long, answered with `IllegalCommand`, the context as before, decoding
goes on at the next byte (`30_encoding.md` R77, `60_exceptions.md` R185, decision D7). -/
def Obligations.ReservedOpcodes : Prop :=
  ∀ (op : Byte) (rest : List Byte), op.toNat = 0 ∨ 4 ≤ op.toNat →
    decode (op :: rest) = .reserved op ∧
    ∀ s : State, s.program.drop s.bo = op :: rest → step s = .next
      { s with bo := s.bo + 1, ci := s.ci + 1, responses := s.responses ++ [.error .illegalCommand] }

/-- No proper beginning of a record is a command: a program that ends there is refused at its offset, and nothing
of the record takes effect (`30_encoding.md` R79, `41_update.md` R118, decision D21). -/
def Obligations.TruncatedRecords : Prop :=
  ∀ (i : Instr) (k : Nat), WellFormed i → 0 < k → k < (encode i).length →
    decode ((encode i).take k) = .truncated ∧
    ∀ s : State, s.program.drop s.bo = (encode i).take k → step s = .refused (.truncatedRecord s.bo)

/-- The bytes of the responses (`30_encoding.md` R80, decision D9), and that `INIT` and `UPDATE` answer plain success and
`DIGEST` a digest. -/
def Obligations.ResponseRecords : Prop :=
  Response.bytes .ok = [0x00] ∧ Response.bytes (.error .illegalCommand) = [0x04] ∧
  Response.bytes (.error .invalidArgumentType) = [0x01] ∧ Response.bytes (.error .invalidSeed) = [0x02] ∧
  Response.bytes (.error .missingArgument) = [0x03] ∧
  Response.bytes (.digest 4211111929) = [0x00, 0xf9, 0x77, 0x00, 0xfb] ∧
  (∀ v : Word, Response.bytes (.digest v) = 0x00 :: bytesLE32 v) ∧
  (∀ (i : Instr) (s t : State), exec i s = .next t →
    t.responses = s.responses ++ [match i with
      | .init _ => .ok
      | .update _ => .ok
      | .digest => .digest (digestValue s.ctx)])

/-- The pseudo-instructions and their commands (`30_encoding.md` R82 to R84). -/
def Obligations.PseudoExpansions : Prop :=
  Pseudo.initDefault.expand = [.init 0] ∧
  (∀ (data : List Byte) (v : Word), (Pseudo.hash data (some v)).expand = [.init v, .update data, .digest]) ∧
  (∀ data : List Byte, (Pseudo.hash data none).expand = [.init 0, .update data, .digest]) ∧
  (∀ fs : List (List Byte), (Pseudo.updatev fs).expand = fs.map .update)

/-- A listing of the spec read by the assembler gives the record bytes the spec prints for it (`30_encoding.md` R81,
`95_test_vectors.md` P6). A sanity statement; the layout of a line is log entry 18. -/
def Obligations.AssemblerListing : Prop :=
  Asm.assemble none (["INIT 1", "UPDATE \"abc\"", ".byte 0xff        ; reserved opcode",
    "DIGEST            -> 2856167679", "INIT 2            ; discards the stream",
    "DIGEST            -> 2047909266      ; empty stream, seed 2"].filterMap fun l => Asm.parseLine l.toList) =
    [0x01, 0x01, 0x00, 0x00, 0x00, 0x02, 0x03, 0x00, 0x00, 0x00, 0x61, 0x62, 0x63, 0xff, 0x03, 0x01, 0x02, 0x00,
      0x00, 0x00, 0x03]

/-! ## Steps and programs -/

/-- When the bytes at the offset decode to a command, a step is that command's meaning in the state with the
offset moved past the record (`10_state.md` R27, `30_encoding.md` R78). -/
def Obligations.StepRunsDecoded : Prop :=
  ∀ (i : Instr) (len : Nat) (s : State), decode (s.program.drop s.bo) = .command i len →
    step s = exec i { s with bo := s.bo + len }

/-- A step is refused only at a truncated record or by an `UPDATE` past the length bound, and never faults
(`70_reset_and_hazards.md` R215, `60_exceptions.md` R180). -/
def Obligations.StepStops : Prop :=
  (∀ (s : State) (r : Refusal), step s = .refused r →
    (decode (s.program.drop s.bo) = .truncated ∧ r = .truncatedRecord s.bo) ∨
    (∃ data len, decode (s.program.drop s.bo) = .command (.update data) len ∧
      2 ^ 64 ≤ s.ctx.totalLength.toNat + data.length ∧ r = .totalLengthOverflow)) ∧
  (∀ (s : State) (f : Fault), step s ≠ .fault f)

/-- A step with the program exhausted changes nothing (the engine is idle, `70_reset_and_hazards.md` R211; that a
step there is an unchanged next state is the model's choice, log entry 3); any other step that completes moves the
offset forward, inside the program, and produces exactly one response (`10_state.md` R27, `30_encoding.md` R80). -/
def Obligations.OneResponsePerStep : Prop :=
  ∀ s : State,
    (s.program.length ≤ s.bo → step s = .next s) ∧
    (∀ t, s.bo < s.program.length → step s = .next t →
      s.bo < t.bo ∧ t.bo ≤ s.program.length ∧ t.program = s.program ∧ t.ci = s.ci + 1 ∧
      ∃ r, t.responses = s.responses ++ [r])

/-- Running a program in byte form, one step for each entry, is running its list form, and ends at its last byte; a run
that completes has executed every entry, with one response each (`10_state.md` R27, `30_encoding.md` R78,
`70_reset_and_hazards.md` R215). -/
def Obligations.ByteFormRun : Prop :=
  ∀ (items : List Item) (s : State), (∀ i ∈ items, i.wf = true) →
    runSteps items.length (s.load (programBytes items)) =
      andThen (runItems items (s.load (programBytes items)))
        (fun t => .next { t with bo := (programBytes items).length }) ∧
    runProgram (programBytes items) s = runSteps items.length (s.load (programBytes items)) ∧
    ∀ t, runProgram (programBytes items) s = .next t →
      t.finished = true ∧ t.ci = items.length ∧ t.responses.length = items.length

/-- A byte-form program decodes to its entries; with a record cut short at its end, to the entries before it and the
offset of the cut, where its run is refused (`30_encoding.md` R77 to R79, decisions D7, D21). -/
def Obligations.DecodeProgramBytes : Prop :=
  (∀ items : List Item, (∀ i ∈ items, i.wf = true) →
    decodeProgram (programBytes items) = ⟨items, none⟩) ∧
  (∀ (items : List Item) (i : Instr) (k : Nat), (∀ e ∈ items, e.wf = true) → WellFormed i → 0 < k →
    k < (encode i).length →
    decodeProgram (programBytes items ++ (encode i).take k) = ⟨items, some (programBytes items).length⟩ ∧
    ∀ s : State, runProgram (programBytes items ++ (encode i).take k) s =
      .refused (.truncatedRecord (programBytes items).length))

/-- The decoder is total: every byte sequence is the records of well-formed entries, followed by nothing or by one
record cut short, whose offset is named (`30_encoding.md` R77, R79, decision D7). -/
def Obligations.DecoderTotal : Prop :=
  ∀ bytes : List Byte, ∃ rest, bytes = programBytes (decodeProgram bytes).items ++ rest ∧
    (∀ e ∈ (decodeProgram bytes).items, e.wf = true) ∧
    ((rest = [] ∧ (decodeProgram bytes).truncatedAt = none) ∨
      (decode rest = .truncated ∧
        (decodeProgram bytes).truncatedAt = some (programBytes (decodeProgram bytes).items).length))

/-- A record given as a number and placed where the next one is read is the one the next step executes
(log entry 19). -/
def Obligations.FetchWordRuns : Prop :=
  ∀ (s : State) (nbits w : Nat) (i : Instr), decodeTableWord nbits w = some i →
    ∃ len, step (s.withFetchWord nbits w) = exec i ((s.withFetchWord nbits w).advance len)

/-! ## Errors and the call layer -/

/-- Every error of `60_exceptions.md` R181 leaves all five items of the context as they were, and the next `DIGEST`
answers what it would have answered before (`60_exceptions.md` R187): the three call errors with no command issued
(that they are raised at the call layer is decision D18), `IllegalCommand` in the engine. That a reserved opcode
completes with `IllegalCommand` at all is the spec's decision D7 (`60_exceptions.md` R185, log entry 20). -/
def Obligations.ErrorsLeaveContext : Prop :=
  (∀ (order : Config.ErrOrder) (call : Call) (s : State) (e : ErrorKind),
    callCommands order call = .error e →
    performCall order call s = .answered (.error e) s ∧ e ≠ .illegalCommand) ∧
  (∀ (op : Byte) (s : State), ∃ t, execItem (.reserved op) s = .next t ∧ t.ctx = s.ctx ∧
    t.responses = s.responses ++ [.error .illegalCommand] ∧ digestValue t.ctx = digestValue s.ctx)

/-- Seeds at the call layer (`40_init.md` R103): an integer in 0..2^32-1 issues `INIT` of exactly that value; any
other integer or value is `InvalidSeed`, never wrapped, no command issued, the state unchanged. -/
def Obligations.SeedNeverWrapped : Prop :=
  ∀ (order : Config.ErrOrder) (s : State),
    (∀ z : Int, 0 ≤ z → z < 2 ^ 32 → ∃ v : Word, (v.toNat : Int) = z ∧
      callCommands order (.construct (some (.int z))) = .ok [.init v]) ∧
    (∀ z : Int, z < 0 ∨ 2 ^ 32 ≤ z →
      performCall order (.construct (some (.int z))) s = .answered (.error .invalidSeed) s) ∧
    (∀ v : Value, (∀ z, v ≠ .int z) →
      performCall order (.construct (some v)) s = .answered (.error .invalidSeed) s) ∧
    callCommands order (.construct none) = .ok [.init 0]

/-- Fragment sequences at the call layer (`41_update.md` R120): if any member is not a byte sequence the whole call
is `InvalidArgumentType` and none is applied, so nested sequences are rejected; if all are, the call completes
under the length bound with the context one `UPDATE` of the concatenation gives. That such a call, which issues none
or several commands, answers its caller one plain success is the model's choice (log entry 17). -/
def Obligations.FragmentSequences : Prop :=
  ∀ (order : Config.ErrOrder) (s : State),
    (∀ vs : List Value, (∃ v ∈ vs, ∀ b, v ≠ .bytes b) →
      performCall order (.update (some (.seq vs))) s = .answered (.error .invalidArgumentType) s) ∧
    (∀ fs : List (List Byte), s.ctx.pending.wf → s.ctx.totalLength.toNat + fs.flatten.length < 2 ^ 64 →
      ∃ t u, performCall order (.update (some (.seq (fs.map .bytes)))) s = .answered .ok t ∧
        exec (.update fs.flatten) s = .next u ∧ t.ctx = u.ctx)

/-- What accepted calls issue and do (`30_encoding.md` R70, `43_oneshot.md` R160). Every command the adapter issues has a
record (R70 (2), R73), and splitting data into records loses no byte (`70_reset_and_hazards.md` R213 H8; the size of the
pieces is log entry 12). `update` of a byte sequence issues its `UPDATE`s, `digest` a `DIGEST`, `hash` the three
commands; run from any state under the length bound, `update` answers success with the context one `UPDATE` gives,
`digest` the digest with the context as it was, `hash` answers `H`. That a call answers the response of its last command
is log entry 17. -/
def Obligations.AdapterIssuesRecords : Prop :=
  (∀ (order : Config.ErrOrder) (call : Call) (cmds : List Instr), callCommands order call = .ok cmds →
    ∀ i ∈ cmds, WellFormed i) ∧
  (∀ data : List Byte, streamOf (updateCommands data) = data) ∧
  (∀ data : List Byte, data.length < 2 ^ 32 → updateCommands data = [.update data]) ∧
  (∀ (order : Config.ErrOrder) (data : List Byte) (seed : Option Value) (v : Word), checkSeed seed = .ok v →
    callCommands order (.update (some (.bytes data))) = .ok (updateCommands data) ∧
    callCommands order .digest = .ok [.digest] ∧
    callCommands order (.hash (some (.bytes data)) seed) = .ok (.init v :: updateCommands data ++ [.digest])) ∧
  (∀ (order : Config.ErrOrder) (data : List Byte) (s : State),
    s.ctx.totalLength.toNat + data.length < 2 ^ 64 →
    ∃ t u, performCall order (.update (some (.bytes data))) s = .answered .ok t ∧
      exec (.update data) s = .next u ∧ t.ctx = u.ctx) ∧
  (∀ (order : Config.ErrOrder) (s : State),
    ∃ t, performCall order .digest s = .answered (.digest (digestValue s.ctx)) t ∧ t.ctx = s.ctx) ∧
  (∀ (order : Config.ErrOrder) (data : List Byte) (seed : Option Value) (v : Word) (s : State),
    checkSeed seed = .ok v → data.length < 2 ^ 64 →
    ∃ t, performCall order (.hash (some (.bytes data)) seed) s = .answered (.digest (H v data)) t ∧
      t.ctx = streamContext v data)

/-- The error of a rejected one-shot call, the machine as it was in every case: with both arguments bad, the one
`ERR_ORDER` says (`60_exceptions.md` R188, decision D19); with one bad argument it is that one's: `MissingArgument` for
no data and `InvalidArgumentType` for other bad data (R182, R184), `InvalidSeed` for a bad seed (R183). -/
def Obligations.HashErrorOrder : Prop :=
  ∀ (data seed : Option Value) (s : State),
    (∀ e e', checkData data = .error e → checkSeed seed = .error e' →
      performCall .dataFirst (.hash data seed) s = .answered (.error e) s ∧
      performCall .seedFirst (.hash data seed) s = .answered (.error e') s) ∧
    (∀ e v, checkData data = .error e → checkSeed seed = .ok v →
      ∀ order, performCall order (.hash data seed) s = .answered (.error e) s) ∧
    (∀ fragments e', checkData data = .ok fragments → checkSeed seed = .error e' →
      ∀ order, performCall order (.hash data seed) s = .answered (.error e') s) ∧
    (∀ e, checkData data = .error e → e = if data.isNone then .missingArgument else .invalidArgumentType) ∧
    (∀ e', checkSeed seed = .error e' → e' = .invalidSeed)

/-- The rejections of `43_oneshot.md` R170, on `update` and on the one-shot call, each leaving the machine as it was:
the list `[1,2,3]`, a call with no argument, text. -/
def Obligations.RejectedCalls : Prop :=
  ∀ (order : Config.ErrOrder) (chars : List Char) (s : State),
    performCall order (.update (some (.seq [.int 1, .int 2, .int 3]))) s =
      .answered (.error .invalidArgumentType) s ∧
    performCall order (.update none) s = .answered (.error .missingArgument) s ∧
    performCall order (.update (some (.text chars))) s = .answered (.error .invalidArgumentType) s ∧
    performCall order (.hash (some (.seq [.int 1, .int 2, .int 3])) none) s =
      .answered (.error .invalidArgumentType) s ∧
    performCall order (.hash none none) s = .answered (.error .missingArgument) s ∧
    performCall order (.hash (some (.text chars)) none) s = .answered (.error .invalidArgumentType) s

/-! ## Several engines -/

/-- Under any serial interleaving each engine ends where its own entries alone take it, and the interleaving
completes exactly when every engine's own run does (`43_oneshot.md` R167, `10_state.md` R32, decision D3). The run lists
one response for each entry, in the order of the entries, and those of one engine are the ones its own run gives
(`70_reset_and_hazards.md` R215, `30_encoding.md` R80). -/
def Obligations.IndependentInterleaving : Prop :=
  ∀ (n : Nat) (es : List (Tagged n)) (sys : System n),
    (∀ sys' rs, System.run es sys = .next sys' rs →
      rs.map Prod.fst = es.map Tagged.engine ∧
      ∀ k : Fin n, runItems (entriesOf k es) sys[k] = .next sys'[k] ∧
        sys'[k].responses = sys[k].responses ++ responsesOf k rs) ∧
    ((∀ k : Fin n, ∃ t, runItems (entriesOf k es) sys[k] = .next t) →
      ∃ sys' rs, System.run es sys = .next sys' rs)

/-- Entries that reach the system together: two for one engine are refused (`20_memory.md` R62, decision D27);
if no engine has two, the order they are listed in makes no difference to the engines or to what each answers
(`20_memory.md` R58 (4)): the same final states and the same tagged responses up to their listing (log entry 16), or
the same refusal. -/
def Obligations.UnorderedAccess : Prop :=
  ∀ (n : Nat) (es : List (Tagged n)) (sys : System n),
    (∀ k : Fin n, 1 < (entriesOf k es).length →
      ∃ k', System.issueTogether es sys = .refused (.unserialisedAccess k')) ∧
    (∀ es', (∀ k : Fin n, (entriesOf k es).length ≤ 1) → es.Perm es' →
      (∃ sys' rs rs', System.issueTogether es sys = .next sys' rs ∧
        System.issueTogether es' sys = .next sys' rs' ∧ rs.Perm rs') ∨
      (∃ r, System.issueTogether es sys = .refused r ∧ System.issueTogether es' sys = .refused r))

end
end

