-- ==== Sys2Proof/Laws/State.lean ====
section
/-! SUPPORT. One lemma for each field and each update of the state. -/

namespace Sys2Proof.Machine

section respond

variable (r : Response) (e : ErrorKind) (c : Context) (n : Nat) (s : State)

@[simp] theorem respond_ctx : (State.respond r s).ctx = s.ctx := rfl
@[simp] theorem respond_program : (State.respond r s).program = s.program := rfl
@[simp] theorem respond_bo : (State.respond r s).bo = s.bo := rfl
@[simp] theorem respond_ci : (State.respond r s).ci = s.ci + 1 := rfl
@[simp] theorem respond_responses : (State.respond r s).responses = s.responses ++ [r] := rfl

@[simp] theorem complete_ctx : (State.complete c r s).ctx = c := rfl
@[simp] theorem complete_program : (State.complete c r s).program = s.program := rfl
@[simp] theorem complete_bo : (State.complete c r s).bo = s.bo := rfl
@[simp] theorem complete_ci : (State.complete c r s).ci = s.ci + 1 := rfl
@[simp] theorem complete_responses : (State.complete c r s).responses = s.responses ++ [r] := rfl

@[simp] theorem raise_ctx : (State.raise e s).ctx = s.ctx := rfl
@[simp] theorem raise_program : (State.raise e s).program = s.program := rfl
@[simp] theorem raise_bo : (State.raise e s).bo = s.bo := rfl
@[simp] theorem raise_ci : (State.raise e s).ci = s.ci + 1 := rfl
@[simp] theorem raise_responses : (State.raise e s).responses = s.responses ++ [.error e] := rfl

@[simp] theorem advance_ctx : (State.advance n s).ctx = s.ctx := rfl
@[simp] theorem advance_program : (State.advance n s).program = s.program := rfl
@[simp] theorem advance_bo : (State.advance n s).bo = s.bo + n := rfl
@[simp] theorem advance_ci : (State.advance n s).ci = s.ci := rfl
@[simp] theorem advance_responses : (State.advance n s).responses = s.responses := rfl

@[simp] theorem applyReset_ctx : s.applyReset.ctx = Context.reset := rfl
@[simp] theorem applyReset_program : s.applyReset.program = s.program := rfl
@[simp] theorem applyReset_bo : s.applyReset.bo = s.bo := rfl
@[simp] theorem applyReset_ci : s.applyReset.ci = s.ci := rfl
@[simp] theorem applyReset_responses : s.applyReset.responses = s.responses := rfl

end respond

section context

variable (v : Word) (data : List Byte) (c : Context)

@[simp] theorem seeded_seed : (Context.seeded v).seed = v := rfl
@[simp] theorem seeded_lanes : (Context.seeded v).lanes = Config.seedLanes v := rfl
@[simp] theorem seeded_pending : (Context.seeded v).pending = [] := rfl
@[simp] theorem seeded_totalLength : (Context.seeded v).totalLength = 0 := rfl

@[simp] theorem updateContext_seed : (updateContext data c).seed = c.seed := rfl
@[simp] theorem updateContext_totalLength :
    (updateContext data c).totalLength = c.totalLength + BitVec.ofNat 64 data.length := rfl
theorem updateContext_lanes : (updateContext data c).lanes =
    mixBlocks ((c.pending ++ data).length / 16) c.lanes (c.pending ++ data) := rfl
theorem updateContext_pending : (updateContext data c).pending =
    (c.pending ++ data).drop (16 * ((c.pending ++ data).length / 16)) := rfl

/-- Two contexts with equal items are equal. -/
theorem Context.eq_of_items {c c' : Context} (h1 : c.seed = c'.seed) (h2 : c.lanes = c'.lanes)
    (h3 : c.pending = c'.pending) (h4 : c.totalLength = c'.totalLength) : c = c' := by
  cases c; cases c'; simp_all

end context

end Sys2Proof.Machine
end

