-- ==== Sys2Proof/Laws/Blocks.lean ====
section
/-! SUPPORT. The block loop: how it runs through a buffer and over a buffer cut in two. -/

namespace Sys2Proof.Machine

theorem blockMix_get (L : Vector Word 4) (B : List Byte) (i : Fin 4) :
    (blockMix L B)[i] = roundLane L[i] (blockWord B i) := by
  simp [blockMix]

@[simp] theorem mixBlocks_zero (L : Vector Word 4) (buf : List Byte) : mixBlocks 0 L buf = L := rfl

/-- The last block is mixed in last. -/
theorem mixBlocks_last (k : Nat) (L : Vector Word 4) (buf : List Byte) :
    mixBlocks (k + 1) L buf = blockMix (mixBlocks k L buf) (blockAt buf k) := by
  simp [mixBlocks, List.range_succ]

theorem blockAt_drop (buf : List Byte) (j k : Nat) : blockAt (buf.drop (16 * k)) j = blockAt buf (k + j) := by
  simp [blockAt, List.drop_drop, Nat.mul_add]

/-- The blocks of a buffer in two goes: `j` blocks, then `k` of what is left. -/
theorem mixBlocks_add (j k : Nat) (L : Vector Word 4) (buf : List Byte) :
    mixBlocks (j + k) L buf = mixBlocks k (mixBlocks j L buf) (buf.drop (16 * j)) := by
  induction k with
  | zero => rw [Nat.add_zero, mixBlocks_zero]
  | succ k ih => rw [← Nat.add_assoc, mixBlocks_last, ih, mixBlocks_last, blockAt_drop]

/-- The first block is mixed in first. -/
theorem mixBlocks_first (k : Nat) (L : Vector Word 4) (buf : List Byte) :
    mixBlocks (k + 1) L buf = mixBlocks k (blockMix L (buf.take 16)) (buf.drop 16) := by
  rw [Nat.add_comm, mixBlocks_add]; rfl

theorem blockAt_append_left {a : List Byte} {j : Nat} (h : 16 * (j + 1) ≤ a.length) (b : List Byte) :
    blockAt (a ++ b) j = blockAt a j := by
  simp only [blockAt, Config.BLOCK]
  rw [List.drop_append_of_le_length (by omega), List.take_append_of_le_length (by simp; omega)]

/-- Blocks that lie in the first part of a buffer do not depend on the second. -/
theorem mixBlocks_append_left {k : Nat} {a : List Byte} (h : 16 * k ≤ a.length) (L : Vector Word 4)
    (b : List Byte) : mixBlocks k L (a ++ b) = mixBlocks k L a := by
  induction k with
  | zero => rw [mixBlocks_zero, mixBlocks_zero]
  | succ k ih => rw [mixBlocks_last, ih (by omega), blockAt_append_left h, mixBlocks_last]

/-- What a first cut leaves, with more bytes after it, is the cut of the whole. -/
theorem drop_blocks_append {a b : List Byte} {k : Nat} (h : 16 * k ≤ a.length) :
    a.drop (16 * k) ++ b = (a ++ b).drop (16 * k) := by
  rw [List.drop_append_of_le_length h]

end Sys2Proof.Machine
end

