-- ==== Sys2Proof/Laws/Codec.lean ====
section
/-! SUPPORT. Byte order, the decoder's cases and record lengths. -/

namespace Sys2Proof

theorem le32_toNat (b0 b1 b2 b3 : Byte) : (le32 b0 b1 b2 b3).toNat =
    b0.toNat + 2 ^ 8 * b1.toNat + 2 ^ 16 * b2.toNat + 2 ^ 24 * b3.toNat := by
  have h0 := b0.isLt
  have h1 := b1.isLt
  have h2 := b2.isLt
  have app : ∀ {n m : Nat} (x : BitVec n) (y : BitVec m), (x ++ y).toNat = x.toNat * 2 ^ m + y.toNat := by
    intro n m x y
    rw [BitVec.toNat_append, Nat.shiftLeft_eq, Nat.mul_comm, Nat.two_pow_add_eq_or_of_lt y.isLt]
  have e : (le32 b0 b1 b2 b3).toNat =
      (b3.toNat * 2 ^ 8 + b2.toNat) * 2 ^ 16 + b1.toNat * 2 ^ 8 + b0.toNat := by
    unfold le32
    rw [app, app, app]
    omega
  rw [e]; omega

@[simp] theorem bytesLE32_length (v : Word) : (bytesLE32 v).length = 4 := rfl

/-- The word assembled from the four bytes of a word is that word. -/
theorem le32_extract (v : Word) : le32 (v.extractLsb' 0 8) (v.extractLsb' 8 8) (v.extractLsb' 16 8)
    (v.extractLsb' 24 8) = v := by
  apply BitVec.eq_of_toNat_eq
  rw [le32_toNat]
  have := v.isLt
  simp only [BitVec.extractLsb'_toNat, Nat.shiftRight_eq_div_pow]
  omega

/-- The bytes of the word assembled from four bytes are those four. -/
theorem bytesLE32_le32 (b0 b1 b2 b3 : Byte) : bytesLE32 (le32 b0 b1 b2 b3) = [b0, b1, b2, b3] := by
  have h0 := b0.isLt
  have h1 := b1.isLt
  have h2 := b2.isLt
  have h3 := b3.isLt
  simp only [bytesLE32, List.cons.injEq, and_true]
  refine ⟨?_, ?_, ?_, ?_⟩ <;> apply BitVec.eq_of_toNat_eq <;>
    simp only [BitVec.extractLsb'_toNat, Nat.shiftRight_eq_div_pow, le32_toNat] <;> omega

@[simp] theorem encode_init_length (v : Word) : (encode (.init v)).length = 5 := rfl

@[simp] theorem encode_update_length (data : List Byte) :
    (encode (.update data)).length = 5 + data.length := by
  simp [encode]; omega

@[simp] theorem encode_digest_length : (encode .digest).length = 1 := rfl

/-- A record has at least its opcode. -/
theorem encode_length_pos (i : Instr) : 0 < (encode i).length := by
  cases i <;> simp [encode]

theorem decode_init (rest : List Byte) : decode (opInit :: rest) = decodeInit rest := by
  simp [decode]

theorem decode_update (rest : List Byte) : decode (opUpdate :: rest) = decodeUpdate rest := by
  simp [decode, opInit, opUpdate]

theorem decode_digest (rest : List Byte) : decode (opDigest :: rest) = .command .digest 1 := by
  simp [decode, opInit, opUpdate, opDigest]

theorem decode_reserved {op : Byte} (h : reservedOpcode op = true) (rest : List Byte) :
    decode (op :: rest) = .reserved op := by
  simp only [reservedOpcode, Bool.and_eq_true, bne_iff_ne] at h
  simp [decode, h.1.1, h.1.2, h.2]

/-- Everything a byte sequence can decode to, with what its bytes are. -/
theorem decode_cases (bytes : List Byte) :
    (bytes = [] ∧ decode bytes = .empty) ∨
    (∃ b1 b2 b3 b4 rest, bytes = opInit :: b1 :: b2 :: b3 :: b4 :: rest ∧
      decode bytes = .command (.init (le32 b1 b2 b3 b4)) 5) ∨
    (∃ b1 b2 b3 b4 payload, bytes = opUpdate :: b1 :: b2 :: b3 :: b4 :: payload ∧
      (le32 b1 b2 b3 b4).toNat ≤ payload.length ∧
      decode bytes = .command (.update (payload.take (le32 b1 b2 b3 b4).toNat)) (5 + (le32 b1 b2 b3 b4).toNat)) ∨
    (∃ rest, bytes = opDigest :: rest ∧ decode bytes = .command .digest 1) ∨
    (∃ op rest, bytes = op :: rest ∧ reservedOpcode op = true ∧ decode bytes = .reserved op) ∨
    (bytes ≠ [] ∧ decode bytes = .truncated) := by
  match bytes with
  | [] => exact .inl ⟨rfl, rfl⟩
  | op :: rest =>
    by_cases h1 : op = opInit
    · subst h1
      rw [decode_init]
      match rest with
      | b1 :: b2 :: b3 :: b4 :: rest => exact .inr (.inl ⟨b1, b2, b3, b4, rest, rfl, rfl⟩)
      | [] | [_] | [_, _] | [_, _, _] => exact .inr (.inr (.inr (.inr (.inr ⟨by simp, rfl⟩))))
    by_cases h2 : op = opUpdate
    · subst h2
      rw [decode_update]
      match rest with
      | b1 :: b2 :: b3 :: b4 :: payload =>
        by_cases h : (le32 b1 b2 b3 b4).toNat ≤ payload.length
        · exact .inr (.inr (.inl ⟨b1, b2, b3, b4, payload, rfl, h, by simp [decodeUpdate, h]⟩))
        · exact .inr (.inr (.inr (.inr (.inr ⟨by simp, by simp [decodeUpdate, h]⟩))))
      | [] | [_] | [_, _] | [_, _, _] => exact .inr (.inr (.inr (.inr (.inr ⟨by simp, rfl⟩))))
    by_cases h3 : op = opDigest
    · subst h3
      exact .inr (.inr (.inr (.inl ⟨rest, rfl, decode_digest rest⟩)))
    have h : reservedOpcode op = true := by simp [reservedOpcode, h1, h2, h3]
    exact .inr (.inr (.inr (.inr (.inl ⟨op, rest, rfl, h, decode_reserved h rest⟩))))

/-- A complete record decodes the same whatever follows it. -/
theorem decode_append {bytes : List Byte} {i : Instr} {len : Nat} (h : decode bytes = .command i len)
    (rest : List Byte) : decode (bytes ++ rest) = .command i len := by
  rcases decode_cases bytes with ⟨-, e⟩ | ⟨b1, b2, b3, b4, r, rfl, e⟩ | ⟨b1, b2, b3, b4, p, rfl, hn, e⟩ |
    ⟨r, rfl, e⟩ | ⟨op, r, -, -, e⟩ | ⟨-, e⟩
  · rw [h] at e; cases e
  · rw [h] at e; rw [e]; simp only [List.cons_append]; rw [decode_init]; rfl
  · rw [h] at e; rw [e]; simp only [List.cons_append]; rw [decode_update]
    have : (le32 b1 b2 b3 b4).toNat ≤ p.length + rest.length := by omega
    simp [decodeUpdate, this, List.take_append_of_le_length hn]
  · rw [h] at e; rw [e]; simp only [List.cons_append]; rw [decode_digest]
  · rw [h] at e; cases e
  · rw [h] at e; cases e

end Sys2Proof
end

