-- ==== Sys2Proof/Laws/Memory.lean ====
section
/-! SUPPORT. The pending buffer: every operation keeps its bound, and what a write does. -/

namespace Sys2Proof.Machine

theorem seeded_pending_wf (v : Word) : (Context.seeded v).pending.wf := by simp [Memory.wf]

theorem reset_pending_wf : Context.reset.pending.wf := by simp [Memory.wf, Context.reset]

theorem updateContext_pending_length (data : List Byte) (c : Context) :
    (updateContext data c).pending.length = (c.pending.length + data.length) % 16 := by
  rw [updateContext_pending]; simp; omega

/-- `UPDATE` leaves at most 15 pending bytes, whatever it found. -/
theorem updateContext_pending_wf (data : List Byte) (c : Context) : (updateContext data c).pending.wf := by
  have h := updateContext_pending_length data c
  simp only [Memory.wf, Config.PENDCAP]
  omega

/-- A write to a valid slot, or just past the last, is read back. -/
theorem read1_write1_same {m : Memory} {a : Nat} (h : a ≤ m.length) (v : Byte) :
    (m.write1 a v).read1 a = v := by
  have h' : (m.take a).length = a := by simp; omega
  simp [Memory.write1, Memory.read1, List.getD_eq_getElem?_getD, h']

/-- A write leaves every other slot alone. -/
theorem read1_write1_other {m : Memory} {a b : Nat} (h : a ≤ m.length) (hb : b ≠ a) (v : Byte) :
    (m.write1 a v).read1 b = m.read1 b := by
  have h' : (m.take a).length = a := by simp; omega
  simp only [Memory.write1, Memory.read1, List.getD_eq_getElem?_getD]
  rcases Nat.lt_or_gt_of_ne hb with hlt | hgt
  · rw [List.getElem?_append_left (by omega), List.getElem?_take_of_lt hlt]
  · obtain ⟨d, rfl⟩ : ∃ d, b = a + 1 + d := ⟨b - (a + 1), by omega⟩
    rw [List.getElem?_append_right (by omega), h', show a + 1 + d - a = d + 1 by omega,
      List.getElem?_cons_succ, List.getElem?_drop]

/-- A write to a slot below the capacity keeps the bound. -/
theorem write1_wf {m : Memory} {a : Nat} (hm : m.wf) (ha : a < Config.PENDCAP) (v : Byte) :
    (m.write1 a v).wf := by
  simp only [Memory.wf, Memory.write1, Config.PENDCAP] at *
  simp; omega

/-- Writing just past the last byte appends. -/
theorem write1_length (m : Memory) (v : Byte) : m.write1 m.length v = m ++ [v] := by
  simp [Memory.write1]

/-- Stashing bytes just past the last one appends them. -/
theorem stash_length (m : Memory) (bytes : List Byte) : stash m m.length bytes = m ++ bytes := by
  induction bytes generalizing m with
  | nil => simp [stash]
  | cons b bytes ih =>
    have h := ih (m ++ [b])
    simp only [List.length_append, List.length_singleton] at h
    rw [stash, write1_length, h, List.append_assoc]; rfl

/-- Phase 2 of the streaming form mixes in every whole block and leaves the rest. -/
theorem streamBlocks_eq {fuel : Nat} (L : Vector Word 4) {data : List Byte} (h : data.length ≤ fuel) :
    streamBlocks fuel L data =
      (mixBlocks (data.length / 16) L data, data.drop (16 * (data.length / 16))) := by
  induction fuel generalizing L data with
  | zero =>
    have : data = [] := by simpa using h
    subst this; rfl
  | succ fuel ih =>
    rw [streamBlocks]
    by_cases hd : 16 ≤ data.length
    · have e : data.length / 16 = (data.drop 16).length / 16 + 1 := by simp; omega
      rw [if_pos hd, ih _ (by simp; omega), e, mixBlocks_first, List.drop_drop]
      simp only [Config.BLOCK]
      congr 2; omega
    · have e : data.length / 16 = 0 := by omega
      rw [if_neg hd, e]; simp

end Sys2Proof.Machine
end

