-- ==== Sys2Proof/Laws/Exec.lean ====
section
/-! SUPPORT. Everything the meanings, an entry of a program and a step can do, said once each. -/

namespace Sys2Proof.Machine

theorem lengthFits_iff (total : Len64) (n : Nat) :
    lengthFits total n = true ↔ total.toNat + n < 2 ^ 64 :=
  decide_eq_true_iff

theorem exec_update_fits {data : List Byte} {s : State}
    (h : s.ctx.totalLength.toNat + data.length < 2 ^ 64) :
    exec (.update data) s = .next (State.complete (updateContext data s.ctx) .ok s) := by
  simp only [exec, execUpdate, (lengthFits_iff _ _).2 h, if_true]

theorem exec_update_overflow {data : List Byte} {s : State}
    (h : 2 ^ 64 ≤ s.ctx.totalLength.toNat + data.length) :
    exec (.update data) s = .refused .totalLengthOverflow := by
  have : lengthFits s.ctx.totalLength data.length = false :=
    decide_eq_false_iff_not.2 (Nat.not_lt.2 h)
  simp [exec, execUpdate, this]

/-- Everything a command can do. -/
theorem exec_cases (i : Instr) (s : State) :
    (∃ v, i = .init v ∧ exec i s = .next (State.complete (Context.seeded v) .ok s)) ∨
    (∃ data, i = .update data ∧ s.ctx.totalLength.toNat + data.length < 2 ^ 64 ∧
      exec i s = .next (State.complete (updateContext data s.ctx) .ok s)) ∨
    (∃ data, i = .update data ∧ 2 ^ 64 ≤ s.ctx.totalLength.toNat + data.length ∧
      exec i s = .refused .totalLengthOverflow) ∨
    (i = .digest ∧ exec i s = .next (State.respond (.digest (digestValue s.ctx)) s)) := by
  cases i with
  | init v => exact .inl ⟨v, rfl, rfl⟩
  | update data =>
    by_cases h : s.ctx.totalLength.toNat + data.length < 2 ^ 64
    · exact .inr (.inl ⟨data, rfl, h, exec_update_fits h⟩)
    · exact .inr (.inr (.inl ⟨data, rfl, by omega, exec_update_overflow (by omega)⟩))
  | digest => exact .inr (.inr (.inr ⟨rfl, rfl⟩))

/-- An `UPDATE` that completes was within the length bound, and this is its state. -/
theorem exec_update_inv {data : List Byte} {s t : State} (h : exec (.update data) s = .next t) :
    s.ctx.totalLength.toNat + data.length < 2 ^ 64 ∧ t = State.complete (updateContext data s.ctx) .ok s := by
  by_cases hf : s.ctx.totalLength.toNat + data.length < 2 ^ 64
  · rw [exec_update_fits hf] at h; cases h; exact ⟨hf, rfl⟩
  · rw [exec_update_overflow (Nat.not_lt.1 hf)] at h; cases h

/-- The total length after an `UPDATE` that has a meaning does not wrap. -/
theorem updateContext_total_toNat {data : List Byte} {c : Context}
    (h : c.totalLength.toNat + data.length < 2 ^ 64) :
    (updateContext data c).totalLength.toNat = c.totalLength.toNat + data.length := by
  rw [updateContext_totalLength, BitVec.toNat_add, BitVec.toNat_ofNat]
  omega

/-- A command read at the offset has a record inside the program. -/
theorem fetch_command_inside {s : State} {i : Instr} {len : Nat} (h : s.fetch = .command i len) :
    0 < len ∧ s.bo + len ≤ s.program.length := by
  have hl : s.remaining.length = s.program.length - s.bo := by simp [State.remaining]
  unfold State.fetch at h
  rcases decode_cases s.remaining with ⟨-, e⟩ | ⟨b1, b2, b3, b4, r, hb, e⟩ | ⟨b1, b2, b3, b4, p, hb, hn, e⟩ |
    ⟨r, hb, e⟩ | ⟨op, r, -, -, e⟩ | ⟨-, e⟩ <;> rw [h] at e <;> cases e
  all_goals rw [hb] at hl; simp at hl; omega

/-- A reserved opcode read at the offset is a byte inside the program. -/
theorem fetch_reserved_inside {s : State} {op : Byte} (h : s.fetch = .reserved op) :
    s.bo + 1 ≤ s.program.length := by
  have hl : s.remaining.length = s.program.length - s.bo := by simp [State.remaining]
  unfold State.fetch at h
  rcases decode_cases s.remaining with ⟨-, e⟩ | ⟨b1, b2, b3, b4, r, -, e⟩ | ⟨b1, b2, b3, b4, p, -, hn, e⟩ |
    ⟨r, -, e⟩ | ⟨op, r, hb, -, e⟩ | ⟨-, e⟩ <;> rw [h] at e <;> cases e
  rw [hb] at hl; simp at hl; omega

/-- The outcome of a step, by the record it reads. -/
theorem step_command {s : State} {i : Instr} {len : Nat} (h : s.fetch = .command i len) :
    step s = exec i (s.advance len) := by
  simp [step, h]

theorem step_reserved {s : State} {op : Byte} (h : s.fetch = .reserved op) :
    step s = .next ((s.advance 1).raise .illegalCommand) := by
  simp [step, h]

theorem step_truncated {s : State} (h : s.fetch = .truncated) :
    step s = .refused (.truncatedRecord s.bo) := by
  simp [step, h]

theorem step_empty {s : State} (h : s.fetch = .empty) : step s = .next s := by
  simp [step, h]

/-- A step that completes: idle, or one command, or one illegal command. -/
theorem step_next_cases {s t : State} (h : step s = .next t) :
    (s.fetch = .empty ∧ t = s) ∨
    (∃ i len, s.fetch = .command i len ∧ exec i (s.advance len) = .next t) ∨
    (∃ op, s.fetch = .reserved op ∧ t = (s.advance 1).raise .illegalCommand) := by
  cases hf : s.fetch with
  | empty => rw [step_empty hf] at h; cases h; exact .inl ⟨rfl, rfl⟩
  | command i len => rw [step_command hf] at h; exact .inr (.inl ⟨i, len, rfl, h⟩)
  | reserved op => rw [step_reserved hf] at h; cases h; exact .inr (.inr ⟨op, rfl, rfl⟩)
  | truncated => rw [step_truncated hf] at h; cases h

end Sys2Proof.Machine
end

