-- ==== Sys2Proof/Laws/Run.lean ====
section
/-! SUPPORT. Running lists of entries. -/

namespace Sys2Proof.Machine

@[simp] theorem andThen_next (s : State) (f : State → Host.Outcome State Fault Refusal) :
    andThen (.next s) f = f s := rfl

@[simp] theorem andThen_refused (r : Refusal) (f : State → Host.Outcome State Fault Refusal) :
    andThen (.refused r) f = .refused r := rfl

@[simp] theorem runItems_nil (s : State) : runItems [] s = .next s := rfl

theorem runItems_cons (item : Item) (items : List Item) (s : State) :
    runItems (item :: items) s = andThen (execItem item s) (runItems items) := rfl

theorem andThen_assoc (o : Host.Outcome State Fault Refusal) (f g : State → Host.Outcome State Fault Refusal) :
    andThen (andThen o f) g = andThen o fun s => andThen (f s) g := by
  cases o <;> rfl

theorem runItems_append (xs ys : List Item) (s : State) :
    runItems (xs ++ ys) s = andThen (runItems xs s) (runItems ys) := by
  induction xs generalizing s with
  | nil => rfl
  | cons x xs ih =>
    rw [List.cons_append, runItems_cons, runItems_cons, andThen_assoc]
    congr 1; funext t; exact ih t

@[simp] theorem runCommands_nil (s : State) : runCommands [] s = .next s := rfl

theorem runCommands_cons (i : Instr) (cmds : List Instr) (s : State) :
    runCommands (i :: cmds) s = andThen (exec i s) (runCommands cmds) := rfl

theorem runCommands_append (xs ys : List Instr) (s : State) :
    runCommands (xs ++ ys) s = andThen (runCommands xs s) (runCommands ys) := by
  simp only [runCommands, List.map_append]; exact runItems_append _ _ s

@[simp] theorem runSteps_zero (s : State) : runSteps 0 s = .next s := rfl

theorem runSteps_succ (k : Nat) (s : State) : runSteps (k + 1) s = andThen (step s) (runSteps k) := rfl


/-- The host's run of this machine is `runSteps`. -/
theorem core_run_eq (k : Nat) (s : State) : Host.Core.run Sys2Proof.core k s = runSteps k s := by
  induction k generalizing s with
  | zero => rfl
  | succ k ih =>
    refine (Host.Core.run.eq_2 Sys2Proof.core s k).trans ?_
    have e : Sys2Proof.core.step s = step s := rfl
    rw [e, runSteps_succ]
    cases step s with
    | next t => exact ih t
    | fault r => rfl
    | refused r => rfl

/-- An entry never changes the program or the offset. -/
theorem execItem_frame {item : Item} {s t : State} (h : execItem item s = .next t) :
    t.program = s.program ∧ t.bo = s.bo := by
  cases item with
  | reserved op => cases h; simp
  | command i =>
    rcases exec_cases i s with ⟨v, rfl, e⟩ | ⟨d, rfl, -, e⟩ | ⟨d, rfl, -, e⟩ | ⟨rfl, e⟩ <;>
      · simp only [execItem] at h; rw [e] at h; cases h <;> simp

/-- An entry that completes answers with exactly one response and counts once. -/
theorem execItem_response {item : Item} {s t : State} (h : execItem item s = .next t) :
    ∃ r, t.responses = s.responses ++ [r] ∧ t.ci = s.ci + 1 := by
  cases item with
  | reserved op => cases h; exact ⟨_, rfl, rfl⟩
  | command i =>
    rcases exec_cases i s with ⟨v, rfl, e⟩ | ⟨d, rfl, -, e⟩ | ⟨d, rfl, -, e⟩ | ⟨rfl, e⟩ <;>
      · simp only [execItem] at h; rw [e] at h; cases h <;> exact ⟨_, rfl, rfl⟩

theorem newResponses_append {s t : State} {rs : List Response} (h : t.responses = s.responses ++ rs) :
    newResponses s t = rs := by
  rw [newResponses, h, List.drop_left]

/-- A program entry is refused only for the length bound. -/
theorem execItem_refused {item : Item} {s : State} {r : Refusal} (h : execItem item s = .refused r) :
    r = .totalLengthOverflow := by
  cases item with
  | reserved op => cases h
  | command i =>
    rcases exec_cases i s with ⟨v, rfl, e⟩ | ⟨d, rfl, -, e⟩ | ⟨d, rfl, -, e⟩ | ⟨rfl, e⟩ <;>
      · simp only [execItem] at h; rw [e] at h; cases h; try rfl

end Sys2Proof.Machine
end

