-- ==== Sys2Proof/Laws/Layers.lean ====
section
/-! SUPPORT. The call layer, the assembler and systems of engines: what their operations can do. -/

namespace Sys2Proof.Machine

/-! ## The adapter -/

/-- Splitting loses no byte. -/
theorem splitData_flatten (fuel : Nat) (data : List Byte) : (splitData fuel data).flatten = data := by
  induction fuel generalizing data with
  | zero => simp [splitData]
  | succ fuel ih =>
    rw [splitData]
    split
    · simp
    · rw [List.flatten_cons, ih, List.take_append_drop]

/-- A sequence of byte sequences is its fragments. -/
theorem allBytes_map (fragments : List (List Byte)) : allBytes (fragments.map .bytes) = some fragments := by
  induction fragments with
  | nil => rfl
  | cons f fs ih => rw [List.map_cons, allBytes, ih]; rfl

/-- A seed is rejected with `InvalidSeed` only. -/
theorem checkSeed_error {v : Option Value} {e : ErrorKind} (h : checkSeed v = .error e) : e = .invalidSeed := by
  unfold checkSeed at h
  split at h <;> (try split at h) <;> cases h <;> rfl

/-- Data are rejected with `MissingArgument` or `InvalidArgumentType` only. -/
theorem checkData_error {v : Option Value} {e : ErrorKind} (h : checkData v = .error e) :
    e = .missingArgument ∨ e = .invalidArgumentType := by
  unfold checkData at h
  split at h <;> (try split at h) <;> cases h <;> simp

/-! ## The assembler -/

@[simp] theorem Asm.wf_byte (b : Byte) : (Asm.Stmt.byte b).wf = true := rfl

@[simp] theorem Asm.wf_command (i : Instr) : (Asm.Stmt.command i).wf = i.wf := by
  simp [Asm.Stmt.wf, Asm.Stmt.commands]

/-- A line that is read holds only commands that have a record (log entry 18). -/
theorem Asm.statement_wf {engine : Option (List Char)} {name cs : List Char} {l : Asm.Line}
    (h : Asm.statement engine name cs = some l) : ∀ stmt, l.stmt = some stmt → stmt.wf = true := by
  simp only [Asm.statement, Asm.lineEnd] at h
  repeat' split at h
  all_goals first
    | cases h; done
    | cases h; intro stmt hs; cases hs; assumption

/-- Nothing the assembler reads from a line lacks a record (log entry 18). -/
theorem Asm.parseLine_wf {cs : List Char} {l : Asm.Line} (h : Asm.parseLine cs = some l) :
    ∀ stmt, l.stmt = some stmt → stmt.wf = true := by
  simp only [Asm.parseLine] at h
  repeat' split at h
  · cases h; exact nofun
  all_goals exact Asm.statement_wf h

/-! ## Systems -/

/-- Everything an entry for one engine can do to a system. -/
theorem issue_cases {n : Nat} (e : Tagged n) (sys : System n) :
    (∃ t r, execItem e.item sys[e.engine] = .next t ∧ t.responses = sys[e.engine].responses ++ [r] ∧
      sys.issue e = .next (sys.set e.engine t) [(e.engine, r)]) ∨
    (∃ r, execItem e.item sys[e.engine] = .refused r ∧ sys.issue e = .refused r) := by
  cases h : execItem e.item sys[e.engine] with
  | next t =>
    obtain ⟨r, hr, -⟩ := execItem_response h
    refine .inl ⟨t, r, rfl, hr, ?_⟩
    have e' : newResponses sys[e.engine] t = [r] := newResponses_append hr
    simp only [System.issue]; rw [h]; simp only [e', List.map_cons, List.map_nil]
  | fault r => cases r
  | refused r => exact .inr ⟨r, rfl, by simp only [System.issue]; rw [h]⟩

/-- One engine of a system replaced: it reads as written, every other as before. -/
theorem system_set_get {n : Nat} (sys : System n) (k j : Fin n) (t : State) :
    (sys.set k t)[j] = if k = j then t else sys[j] := by
  by_cases h : k = j
  · subst h; simp
  · have h' : k.val ≠ j.val := fun e => h (Fin.ext e)
    rw [if_neg h]; simp [Vector.getElem_set_ne, h']

theorem entriesOf_cons_same {n : Nat} (e : Tagged n) (es : List (Tagged n)) :
    entriesOf e.engine (e :: es) = e.item :: entriesOf e.engine es := by
  simp [entriesOf]

theorem entriesOf_cons_other {n : Nat} {e : Tagged n} {k : Fin n} (h : e.engine ≠ k) (es : List (Tagged n)) :
    entriesOf k (e :: es) = entriesOf k es := by
  simp [entriesOf, h]

@[simp] theorem after_next {n : Nat} (rs rs' : List (TaggedResponse n)) (sys : System n) :
    SystemOutcome.after rs (.next sys rs') = .next sys (rs ++ rs') := rfl

@[simp] theorem after_refused {n : Nat} (rs : List (TaggedResponse n)) (r : Refusal) :
    SystemOutcome.after rs (.refused r) = .refused r := rfl

theorem responsesOf_cons_same {n : Nat} (k : Fin n) (r : Response) (rs : List (TaggedResponse n)) :
    responsesOf k ((k, r) :: rs) = r :: responsesOf k rs := by
  simp [responsesOf]

theorem responsesOf_cons_other {n : Nat} {j k : Fin n} (h : j ≠ k) (r : Response) (rs : List (TaggedResponse n)) :
    responsesOf k ((j, r) :: rs) = responsesOf k rs := by
  simp [responsesOf, h]

end Sys2Proof.Machine
end

