-- ==== Sys2Proof/Laws/PerInstr.lean ====
section
/-! SUPPORT. The family of statements made for each instruction: its record's length is the one the decoder reads
from the record's first bytes (`30_encoding.md` R78). -/

namespace Sys2Proof.Laws.RecordLength

/-- R78 on the record of a well-formed instruction. -/
def Statement (i : Instr) : Prop := WellFormed i → recordLength (encode i) = (encode i).length

theorem init (seed : Word) : Statement (.init seed) := fun _ => by
  have o : (encode (.init seed)).getD 0 0 = opInit := rfl
  rw [recordLength, o, if_pos rfl, encode_init_length]

theorem update (data : List Byte) : Statement (.update data) := fun h => by
  have h' : data.length < 2 ^ 32 := decide_eq_true_iff.1 h
  have e : le32At (encode (.update data)) 1 = BitVec.ofNat 32 data.length := le32_extract _
  have o : (encode (.update data)).getD 0 0 = opUpdate := rfl
  rw [recordLength, o, e, if_neg (by decide), if_pos rfl, BitVec.toNat_ofNat, Nat.mod_eq_of_lt h',
    encode_update_length]

theorem digest : Statement .digest := fun _ => by
  simp [recordLength, encode, opInit, opUpdate, opDigest]

end Sys2Proof.Laws.RecordLength
end

