-- ==== Sys2Proof/Tests/Slice0.lean ====
section
/-! SUPPORT. Tests whose expected results are the spec's (`95_test_vectors.md`, and the encodings of
`30_encoding.md` written out), and for each statement with hypotheses a state and operands that meet them. -/

namespace Sys2Proof.Tests

open Sys2Proof Sys2Proof.Machine

/-! ## Helpers -/

/-- A machine on a context with these pending bytes and this length, seed 0 and its seeding lanes. -/
def sample (pending : List Byte) (total : Len64) : State :=
  { State.reset with ctx := { Context.reset with pending := pending, totalLength := total } }

/-- The bytes `00 01 02 ..` of `95_test_vectors.md` 2.4. -/
def seq (n : Nat) : List Byte := (List.range n).map (BitVec.ofNat 8)

/-- "hello" in ASCII (`20_memory.md` R51). -/
def hello : List Byte := [0x68, 0x65, 0x6c, 0x6c, 0x6f]

/-- The responses where an outcome is a next state. -/
def responsesOf : Host.Outcome State Fault Refusal → Option (List Response)
  | .next t => some t.responses
  | _ => none

/-- The context where an outcome is a next state. -/
def ctxOf : Host.Outcome State Fault Refusal → Option Context
  | .next t => some t.ctx
  | _ => none

/-- The outcome is a next state. -/
def completes : Host.Outcome State Fault Refusal → Bool
  | .next _ => true
  | _ => false

theorem next_of_completes {o : Host.Outcome State Fault Refusal} (h : completes o = true) : ∃ t, o = .next t := by
  cases o with
  | next t => exact ⟨t, rfl⟩
  | fault r => cases h
  | refused r => cases h

/-- The refusal of an outcome. -/
def refusalOf : Host.Outcome State Fault Refusal → Option Refusal
  | .refused r => some r
  | _ => none

theorem refused_of_refusalOf {o : Host.Outcome State Fault Refusal} {r : Refusal} (h : refusalOf o = some r) :
    o = .refused r := by
  cases o with
  | next t => cases h
  | fault r => cases r
  | refused r => cases h; rfl

/-! ## WellFormed: the one check, and a term it refuses -/

theorem test_wellFormed_refuses_long_update (data : List Byte) (h : 2 ^ 32 ≤ data.length) :
    ¬ WellFormed (.update data) :=
  fun hw => Nat.not_lt.2 h (decide_eq_true_iff.1 hw)

theorem test_wellFormed_ill_formed_term : ∃ data, ¬ WellFormed (.update data) :=
  ⟨List.replicate (2 ^ 32) 0, test_wellFormed_refuses_long_update _ (by rw [List.length_replicate])⟩

theorem test_wellFormed_accepts_update : WellFormed (.update hello) := by decide

/-! ## Decoding: records written out from `30_encoding.md` R72 to R74 and `95_test_vectors.md` 2.6 -/

theorem test_decode_init : decode [0x01, 0x78, 0x56, 0x34, 0x12] = .command (.init 0x12345678) 5 := by decide

theorem test_decode_update :
    decode [0x02, 0x05, 0x00, 0x00, 0x00, 0x68, 0x65, 0x6c, 0x6c, 0x6f] = .command (.update hello) 10 := by decide

theorem test_decode_digest : decode [0x03] = .command .digest 1 := by decide

theorem test_decode_update_empty_then_digest :
    decodeProgram [0x02, 0x00, 0x00, 0x00, 0x00, 0x03] = ⟨[.command (.update []), .command .digest], none⟩ := by
  decide

theorem test_decode_reserved : decode [0x00] = .reserved 0x00 ∧ decode [0x04] = .reserved 0x04 := by decide

theorem test_decode_truncated : decodeProgram [0x03, 0x02, 0x05, 0x00, 0x00, 0x00, 0x68, 0x65] =
    ⟨[.command .digest], some 1⟩ := by decide

theorem test_tableWord : decodeTableWord 40 0x1234567801 = some (.init 0x12345678) ∧
    decodeTableWord 8 0x02 = some (.update []) ∧ decodeTableWord 8 0x03 = some .digest ∧
    decodeTableWord 8 0x04 = none := by decide

/-! ## Meanings: values of `95_test_vectors.md` -/

/-- 2.2, seed 0xFFFFFFFF: every add wraps. -/
theorem test_init_wraps : ctxOf (exec (.init 0xFFFFFFFF) State.reset) =
    some ⟨0xFFFFFFFF, #v[0x24234427, 0x85EBCA76, 0xFFFFFFFF, 0x61C8864E], [], 0⟩ := by decide

/-- P6: `INIT` on a live engine discards the stream. -/
theorem test_init_discards : ctxOf (exec (.init 2) (sample [0x61, 0x62, 0x63] 3)) =
    some ⟨2, #v[0x2423442A, 0x85EBCA79, 0x00000002, 0x61C88651], [], 0⟩ := by decide

/-- 2.4: `UPDATE seq[0..33)` after `INIT 0`. -/
theorem test_update_two_blocks : ctxOf (exec (.update (seq 33)) State.reset) =
    some ⟨0, #v[0x482243D4, 0x54EA6B2C, 0x03ED5694, 0x217F5DEC], [0x20], 33⟩ := by decide

/-- 2.4: fifteen pending bytes and one more complete a block. -/
theorem test_update_completes_block : ctxOf (exec (.update [0x0f]) (sample (seq 15) 15)) =
    some ⟨0, #v[0xF817BCCB, 0x0222719B, 0xD4B0C0A4, 0xDEBB7574], [], 16⟩ := by decide

/-- V2, the source's number. -/
theorem test_digest_hello : responsesOf (exec .digest (sample hello 5)) = some [.digest 4211111929] := by decide

/-- R215, R27: a byte-form run ends at the last byte of its program. -/
theorem test_runProgram_finishes :
    (match runProgram [0x01, 0x00, 0x00, 0x00, 0x00, 0x03] State.reset with
      | .next t => some (t.bo, t.ci, t.finished)
      | _ => none) = some (6, 2, true) := by decide

/-- V18: the long path with both kinds of tail step, through the records. -/
theorem test_digest_long_path :
    responsesOf (runSteps 3 (State.reset.load (encode (.init 0) ++ encode (.update (seq 31)) ++ [0x03]))) =
      some [.ok, .ok, .digest 0xEF24F709] := by decide

/-- P6: a reserved opcode changes nothing and is answered `04`. -/
theorem test_reserved_response :
    responsesOf (runSteps 1 ((sample [0x61, 0x62, 0x63] 3).load [0xff])) = some [.error .illegalCommand] ∧
    ctxOf (runSteps 1 ((sample [0x61, 0x62, 0x63] 3).load [0xff])) = some (sample [0x61, 0x62, 0x63] 3).ctx := by
  decide

/-- 2.6: the bytes of a digest response. -/
theorem test_response_bytes : Response.bytes (.digest 46947589) = [0x00, 0x05, 0x5d, 0xcc, 0x02] := by decide

/-- 2.7: which error a one-shot call with two bad arguments reports. -/
theorem test_hash_error_order :
    callCommands .dataFirst (.hash (some (.text ['a'])) (some (.int (-1)))) = .error .invalidArgumentType ∧
    callCommands .seedFirst (.hash (some (.text ['a'])) (some (.int (-1)))) = .error .invalidSeed := ⟨rfl, rfl⟩

/-- P5, left: `UPDATEV` on a line of a listing, and its record bytes. -/
theorem test_assembler_updatev :
    ((Asm.parseLine "UPDATEV (\"hello\",\"goodbye\")".toList).bind Asm.Line.stmt).map Asm.Stmt.bytes =
      some [0x02, 0x05, 0x00, 0x00, 0x00, 0x68, 0x65, 0x6c, 0x6c, 0x6f, 0x02, 0x07, 0x00, 0x00, 0x00,
        0x67, 0x6f, 0x6f, 0x64, 0x62, 0x79, 0x65] := by decide

/-- 2.6: a seed out of range is no command for the assembler either. -/
theorem test_assembler_rejects_seed : Asm.parseLine "INIT 4294967296".toList = none := by decide

/-- 40_init.md R104: an operand-less `INIT` is `INIT 0`; `->` is read after it as after any statement (log entry 18). -/
theorem test_assembler_init_default :
    ["INIT", "INIT -> 7 ; c"].map (fun l => ((Asm.parseLine l.toList).bind Asm.Line.stmt).map Asm.Stmt.bytes) =
      [some [0x01, 0x00, 0x00, 0x00, 0x00], some [0x01, 0x00, 0x00, 0x00, 0x00]] ∧
    Asm.parseLine "INIT x".toList = none := by decide

/-! ## Witnesses: each statement's hypotheses can be met -/

theorem reset_inv : State.reset.Inv :=
  ⟨⟨by decide, by decide, fun _ => rfl⟩, by decide, by decide⟩

theorem reset_onStream : State.reset.ctx.OnStream := ⟨[], by decide, rfl⟩

/-- A loaded one-byte program meets the invariant, and a step of it completes. -/
theorem witness_StepKeepsInv : ∃ s t : State, s.Inv ∧ step s = .next t ∧ t ≠ s :=
  ⟨State.reset.load [0x03], _, ⟨⟨by decide, by decide, fun _ => rfl⟩, by decide, by decide⟩, rfl, by decide⟩

theorem witness_StepKeepsOnStream : ∃ s t : State, s.ctx.OnStream ∧ step s = .next t ∧ t ≠ s :=
  ⟨State.reset.load [0x03], _, reset_onStream, rfl, by decide⟩

theorem witness_OnStreamMeetsInv : (streamContext 1 (seq 20)).OnStream := ⟨seq 20, by decide, rfl⟩

theorem witness_CommandFrame : (∃ t, exec .digest (sample hello 5) = .next t) ∧
    (∃ t, exec (.update [0x00]) (sample hello 5) = .next t) ∧ ∃ t, exec (.init 7) (sample hello 5) = .next t :=
  ⟨⟨_, rfl⟩, next_of_completes (by decide), ⟨_, rfl⟩⟩

/-- Both sides of the length bound, at it. -/
theorem witness_UpdateCompletes :
    (sample [] 0xFFFFFFFFFFFFFFFF).ctx.totalLength.toNat + ([] : List Byte).length < 2 ^ 64 ∧
    2 ^ 64 ≤ (sample [] 0xFFFFFFFFFFFFFFFF).ctx.totalLength.toNat + [(0x00 : Byte)].length := by decide

theorem test_update_overflow_refused :
    refusalOf (exec (.update [0x00]) (sample [] 0xFFFFFFFFFFFFFFFF)) = some .totalLengthOverflow := by decide

theorem witness_UpdateLaneByLane : ∃ t, exec (.update (seq 40)) (sample hello 5) = .next t :=
  next_of_completes (by decide)

theorem witness_LengthAccounting : ∃ t, exec (.update (seq 1)) (sample [] 0xFFFFFFFFFFFFFFFE) = .next t :=
  next_of_completes (by decide)

/-- Fifteen pending bytes meet the bound; sixteen do not. -/
theorem witness_UpdateZeroLength : (sample (seq 15) 15).ctx.pending.wf ∧ ¬ (sample (seq 16) 16).ctx.pending.wf := by
  decide

/-- The clauses at their boundary: 15 buffered bytes, and 16. -/
theorem witness_UpdateCarry :
    (sample (seq 5) 5).ctx.totalLength.toNat + (seq 10).length < 2 ^ 64 ∧
    (sample (seq 5) 5).ctx.pcount + (seq 10).length < 16 ∧
    (sample (seq 15) 15).ctx.totalLength.toNat + (seq 1).length < 2 ^ 64 ∧
    (sample (seq 15) 15).ctx.pcount ≤ 15 ∧ 16 ≤ (sample (seq 15) 15).ctx.pcount + (seq 1).length := by decide

theorem witness_UpdateStores :
    (∃ t, exec (.update (seq 17)) (sample (seq 14) 14) = .next t ∧ 14 < t.ctx.pcount) ∧
    (∃ t, exec (.update (seq 1)) (sample (seq 14) 14) = .next t) ∧
    (sample (seq 14) 14).ctx.pcount + (seq 1).length < 16 ∧ 13 < (sample (seq 14) 14).ctx.pcount ∧
    0 < (seq 1).length :=
  ⟨⟨_, exec_update_fits (by decide), by decide⟩, next_of_completes (by decide), by decide, by decide, by decide⟩

/-- Lanes that agree at 2 only, blocks that agree on bytes 8 to 11 only. -/
theorem witness_BlockLanewise :
    (#v[1, 2, 3, 4] : Vector Word 4)[(2 : Fin 4)] = (#v[5, 6, 3, 8] : Vector Word 4)[(2 : Fin 4)] ∧
    ∀ k, k < 4 → (seq 16).getD (4 * (2 : Fin 4) + k) 0 =
      ([9, 9, 9, 9, 9, 9, 9, 9, 8, 9, 10, 11, 0, 0, 0, 0] : List Byte).getD (4 * (2 : Fin 4) + k) 0 := by
  decide

theorem witness_LittleEndian : 0 + 4 ≤ (seq 4).length := by decide

theorem witness_BlockWords : (seq 5 ++ seq 11).length = 16 := by decide

theorem witness_RotateMovesBits : (1 ≤ 1 ∧ 1 ≤ 31 ∧ 31 < 32) ∧ (1 ≤ 31 ∧ 31 ≤ 31 ∧ 0 < 32) := by decide

theorem witness_StreamingFormAgrees : (sample (seq 15) 15).ctx.pending.wf := by decide

/-- Both clauses at the bound: a total of 2^64 - 1, and of 2^64. -/
theorem witness_ChunkInvariance :
    (sample [] 0xFFFFFFFFFFFFFFFD).ctx.totalLength.toNat + (seq 1 ++ seq 1).length = 2 ^ 64 - 1 ∧
    2 ^ 64 ≤ (sample [] 0xFFFFFFFFFFFFFFFE).ctx.totalLength.toNat + (seq 1 ++ seq 1).length := by decide

theorem witness_FragmentsAsOne : (sample (seq 15) 15).ctx.pending.wf ∧
    (sample (seq 15) 15).ctx.totalLength.toNat + [hello, [], seq 11].flatten.length < 2 ^ 64 := by decide

/-- 15, 16 and 2^32 bytes: the last has low 32 bits below 16 and is long all the same. -/
theorem witness_DigestStages : (15 : Len64).toNat < 16 ∧ 16 ≤ (16 : Len64).toNat ∧
    16 ≤ (4294967296 : Len64).toNat := by decide

theorem witness_TailInStreamOrder : (seq 3).length < 4 := by decide

theorem witness_EmptyStreamDigest : digestValue (Context.seeded 5) = digestValue (Context.seeded 5) := rfl

theorem witness_DigestReads : 16 ≤ (sample [] 16).ctx.totalLength.toNat ∧
    (sample (seq 15) 15).ctx.totalLength.toNat < 16 := by decide

theorem witness_DigestPure :
    (∃ u, runCommands ([.update hello] ++ [.update (seq 11)]) State.reset = .next u) ∧
    runCommands ([.digest] ++ [.update (seq 1)]) (sample [] 0xFFFFFFFFFFFFFFFF) = .refused .totalLengthOverflow :=
  ⟨next_of_completes (by decide), refused_of_refusalOf (by decide)⟩

theorem witness_StreamCharacterisation :
    (∀ i ∈ [Instr.update hello, .digest, .update (seq 20)], isInit i = false) ∧
    (streamOf [Instr.update hello, .digest, .update (seq 20)]).length < 2 ^ 64 := by decide

theorem witness_HashValue : hello.length < 2 ^ 64 := by decide

theorem witness_SeedSensitivityShort : (seq 15).length < 16 := by decide

theorem witness_DependsOnContextOnly :
    (sample hello 5).ctx = ((sample hello 5).load [0x03]).ctx ∧ sample hello 5 ≠ (sample hello 5).load [0x03] := by
  decide

theorem witness_AlwaysValid : (∃ t, exec .digest (sample [] 0xFFFFFFFFFFFFFFFF) = .next t ∧
      (t.responses.map Response.status) = [0x00]) ∧
    ∀ data, Instr.digest = .update data →
      (sample [] 0xFFFFFFFFFFFFFFFF).ctx.totalLength.toNat + data.length < 2 ^ 64 :=
  ⟨⟨_, rfl, rfl⟩, nofun⟩

theorem witness_DecodeEncode : WellFormed (.update hello) ∧ WellFormed (.init 0xFFFFFFFF) ∧ WellFormed .digest := by
  decide

theorem witness_EncodeDecode : decode (encode (.update hello) ++ [0x03]) = .command (.update hello) 10 := by decide

theorem witness_ReservedOpcodes : (0x00 : Byte).toNat = 0 ∧ 4 ≤ (0x04 : Byte).toNat ∧ 4 ≤ (0xff : Byte).toNat ∧
    (State.reset.load [0x04, 0x03]).program.drop (State.reset.load [0x04, 0x03]).bo = 0x04 :: [0x03] := by decide

theorem witness_TruncatedRecords : WellFormed (.update hello) ∧ 0 < 9 ∧ 9 < (encode (.update hello)).length ∧
    (State.reset.load ((encode (.update hello)).take 9)).program.drop 0 = (encode (.update hello)).take 9 := by
  decide

theorem witness_ResponseRecords : ∃ t, exec (.update hello) State.reset = .next t :=
  next_of_completes (by decide)

theorem witness_StepRunsDecoded :
    decode ((State.reset.load [0x03, 0x01]).program.drop (State.reset.load [0x03, 0x01]).bo) =
      .command .digest 1 := by decide

theorem witness_StepStops :
    step (State.reset.load [0x01, 0x00]) = .refused (.truncatedRecord 0) ∧
    step { sample [] 0xFFFFFFFFFFFFFFFF with program := encode (.update [0x00]) } = .refused .totalLengthOverflow :=
  ⟨rfl, refused_of_refusalOf (by decide)⟩

theorem witness_OneResponsePerStep : State.reset.program.length ≤ State.reset.bo ∧
    ∃ t, (State.reset.load [0x03]).bo < (State.reset.load [0x03]).program.length ∧
      step (State.reset.load [0x03]) = .next t :=
  ⟨by decide, _, by decide, rfl⟩

theorem witness_ByteFormRun :
    ∀ i ∈ [Item.command (.init 1), .reserved 0xff, .command (.update hello), .command .digest], i.wf = true := by
  decide

/-- P6 in byte form: it completes, from any start. -/
theorem witness_ByteFormRun_completes : ∃ t, runProgram (programBytes [.command (.init 1),
    .command (.update [0x61, 0x62, 0x63]), .reserved 0xff, .command .digest]) (sample hello 5) = .next t :=
  next_of_completes (by decide)

theorem witness_DecodeProgramBytes : (∀ e ∈ [Item.command .digest, .reserved 0x00], e.wf = true) ∧
    WellFormed (.init 1) ∧ 0 < 4 ∧ 4 < (encode (.init 1)).length := by decide

theorem witness_FetchWordRuns : decodeTableWord 40 0x0000000102 = some (.update [0x00]) := by decide

theorem witness_ErrorsLeaveContext :
    callCommands .dataFirst (.construct (some (.int (-1)))) = .error .invalidSeed := rfl

/-- The ends of the seed range on both sides, and a value that is no integer. -/
theorem witness_SeedNeverWrapped : (0 ≤ (0 : Int) ∧ (0 : Int) < 2 ^ 32) ∧
    (0 ≤ (4294967295 : Int) ∧ (4294967295 : Int) < 2 ^ 32) ∧ ((-1 : Int) < 0 ∨ (2 : Int) ^ 32 ≤ -1) ∧
    ((4294967296 : Int) < 0 ∨ (2 : Int) ^ 32 ≤ 4294967296) ∧ ∀ z, Value.nonIntegral ≠ .int z :=
  ⟨by decide, by decide, by decide, by decide, nofun⟩

/-- A nested sequence has a member that is no byte sequence; a flat one is within the bounds. -/
theorem witness_FragmentSequences :
    (∃ v ∈ [Value.bytes hello, .seq [.bytes hello]], ∀ b, v ≠ .bytes b) ∧
    (sample (seq 15) 15).ctx.pending.wf ∧
    (sample (seq 15) 15).ctx.totalLength.toNat + [hello, hello].flatten.length < 2 ^ 64 :=
  ⟨⟨.seq [.bytes hello], by simp, nofun⟩, by decide, by decide⟩

theorem witness_AdapterIssuesRecords :
    callCommands .dataFirst (.hash (some (.bytes hello)) none) = .ok [.init 0, .update hello, .digest] ∧
    hello.length < 2 ^ 32 := ⟨rfl, by decide⟩

/-- A seed accepted at each end of its range and by default; data within the bound of each clause, up to it. -/
theorem witness_AdapterIssuesRecords_effects : checkSeed none = .ok 0 ∧
    checkSeed (some (.int 4294967295)) = .ok 0xFFFFFFFF ∧
    (sample [] 0xFFFFFFFFFFFFFFFE).ctx.totalLength.toNat + (seq 1).length < 2 ^ 64 ∧ hello.length < 2 ^ 64 :=
  ⟨rfl, rfl, by decide, by decide⟩

theorem witness_HashErrorOrder : checkData none = .error .missingArgument ∧
    checkSeed (some .nonIntegral) = .error .invalidSeed ∧ checkSeed (some (.int 3)) = .ok 3 ∧
    checkData (some (.bytes hello)) = .ok [hello] ∧ checkData (some (.text [])) = .error .invalidArgumentType :=
  ⟨rfl, rfl, rfl, rfl, rfl⟩

/-- R183: valid data with a seed that is no U32. -/
theorem test_hash_invalid_seed :
    callCommands .dataFirst (.hash (some (.bytes hello)) (some (.int (-1)))) = .error .invalidSeed := rfl

/-- Two engines, three entries interleaved (the shape of `95_test_vectors.md` P4). -/
def twoEngines : System 2 := System.reset 2

def interleaved : List (Tagged 2) :=
  [⟨0, .command (.update [0x68, 0x65])⟩, ⟨1, .command (.update [0x67, 0x6f, 0x6f])⟩, ⟨0, .command .digest⟩]

/-- The responses where the outcome of a system is a result. -/
def systemResponses {n : Nat} : SystemOutcome n → Option (List (TaggedResponse n))
  | .next _ rs => some rs
  | .refused _ => none

theorem next_of_systemResponses {n : Nat} {o : SystemOutcome n} {rs : List (TaggedResponse n)}
    (h : systemResponses o = some rs) : ∃ sys', o = .next sys' rs := by
  cases o with
  | next sys' rs' => cases h; exact ⟨sys', rfl⟩
  | refused r => cases h

/-- P4 whole: the responses of both engines in command order, each engine's digest the source's or the spec's. -/
theorem test_P4_responses_in_command_order : systemResponses (System.run
    [⟨0, .command (.init 0)⟩, ⟨1, .command (.init 0)⟩, ⟨0, .command (.update [0x68, 0x65])⟩,
      ⟨1, .command (.update [0x67, 0x6f, 0x6f])⟩, ⟨0, .command (.update [0x6c, 0x6c])⟩,
      ⟨1, .command (.update [0x64, 0x62])⟩, ⟨0, .command (.update [0x6f])⟩,
      ⟨1, .command (.update [0x79, 0x65])⟩, ⟨0, .command .digest⟩, ⟨1, .command .digest⟩] twoEngines) =
    some [(0, .ok), (1, .ok), (0, .ok), (1, .ok), (0, .ok), (1, .ok), (0, .ok), (1, .ok),
      (0, .digest 4211111929), (1, .digest 2269043192)] := by decide

theorem witness_IndependentInterleaving :
    (∃ sys' rs, System.run interleaved twoEngines = .next sys' rs) ∧
    ∀ k : Fin 2, ∃ t, runItems (entriesOf k interleaved) twoEngines[k] = .next t := by
  refine ⟨?_, fun k => next_of_completes ?_⟩
  · obtain ⟨sys', h⟩ := next_of_systemResponses (o := System.run interleaved twoEngines)
      (rs := [(0, .ok), (1, .ok), (0, .digest (H 0 [0x68, 0x65]))]) (by decide)
    exact ⟨sys', _, h⟩
  · match k with
    | 0 => decide
    | 1 => decide

theorem witness_UnorderedAccess : 1 < (entriesOf 0 interleaved).length ∧
    (∀ k : Fin 2, (entriesOf k (interleaved.take 2)).length ≤ 1) ∧
    (interleaved.take 2).Perm [⟨1, .command (.update [0x67, 0x6f, 0x6f])⟩, ⟨0, .command (.update [0x68, 0x65])⟩] :=
  ⟨by decide, by decide, by decide⟩

end Sys2Proof.Tests
end

section
/-! PROOFS. Byte order (`00_scope.md` R14): what `LE32` reads inside the bytes, and what `bytesLE32` writes. -/

namespace Sys2Proof

/-- Inside the bytes, `LE32` reads the four bytes from its offset; no default stands in for one. -/
theorem le32At_eq_le32 {b : List Byte} {o : Nat} (h : o + 4 ≤ b.length) :
    le32At b o = le32 b[o] b[o + 1] b[o + 2] b[o + 3] := by
  simp only [le32At, List.getD_eq_getElem b 0 (show o < b.length by omega),
    List.getD_eq_getElem b 0 (show o + 1 < b.length by omega),
    List.getD_eq_getElem b 0 (show o + 2 < b.length by omega),
    List.getD_eq_getElem b 0 (show o + 3 < b.length by omega)]

theorem le32At_toNat {b : List Byte} {o : Nat} (h : o + 4 ≤ b.length) : (le32At b o).toNat =
    b[o].toNat + 2 ^ 8 * b[o + 1].toNat + 2 ^ 16 * b[o + 2].toNat + 2 ^ 24 * b[o + 3].toNat := by
  rw [le32At_eq_le32 h, le32_toNat]

/-- The base-256 digits of a word, lowest first. The last needs no remainder: a word is below `2 ^ 32`. -/
theorem bytesLE32_map_toNat (v : Word) : (bytesLE32 v).map BitVec.toNat =
    [v.toNat % 256, v.toNat / 2 ^ 8 % 256, v.toNat / 2 ^ 16 % 256, v.toNat / 2 ^ 24] := by
  have top : v.toNat / 2 ^ 24 < 256 := by have := v.isLt; omega
  simpa [bytesLE32, Nat.shiftRight_eq_div_pow] using top

theorem le32At_bytesLE32 (v : Word) : le32At (bytesLE32 v) 0 = v :=
  le32_extract v

/-- Settles O19: the sum that `LE32` reads, the digits that `bytesLE32` writes, and the round trip. -/
theorem littleEndian : Obligations.LittleEndian :=
  ⟨fun _ _ h => le32At_toNat h, bytesLE32_map_toNat, le32At_bytesLE32⟩

end Sys2Proof
end

section
/-! PROOFS. Seeds at the call layer (`40_init.md` R103, R104): which values `checkSeed` accepts, and what a rejected
call does to the machine. -/

namespace Sys2Proof.Machine

/-- An integer in range is the seed as it is: the word has that very value. -/
theorem checkSeed_int_in_range {z : Int} (h0 : 0 ≤ z) (h1 : z < 2 ^ 32) :
    ∃ v : Word, (v.toNat : Int) = z ∧ checkSeed (some (.int z)) = .ok v := by
  refine ⟨BitVec.ofNat 32 z.toNat, ?_, if_pos ⟨h0, h1⟩⟩
  rw [BitVec.toNat_ofNat, Nat.mod_eq_of_lt (by omega), Int.toNat_of_nonneg h0]

theorem checkSeed_int_out_of_range {z : Int} (h : z < 0 ∨ 2 ^ 32 ≤ z) :
    checkSeed (some (.int z)) = .error .invalidSeed :=
  if_neg (by omega)

theorem checkSeed_not_int {v : Value} (h : ∀ z, v ≠ .int z) : checkSeed (some v) = .error .invalidSeed := by
  cases v with
  | int z => exact absurd rfl (h z)
  | bytes _ | text _ | nonIntegral | object | seq _ => rfl

theorem callCommands_construct_ok (order : Config.ErrOrder) {seed : Option Value} {v : Word}
    (h : checkSeed seed = .ok v) : callCommands order (.construct seed) = .ok [.init v] := by
  rw [callCommands, h]

theorem callCommands_construct_error (order : Config.ErrOrder) {seed : Option Value} {e : ErrorKind}
    (h : checkSeed seed = .error e) : callCommands order (.construct seed) = .error e := by
  rw [callCommands, h]

/-- A rejected call answers its error and leaves the machine as it was (`60_exceptions.md` R187). -/
theorem performCall_of_error {order : Config.ErrOrder} {call : Call} {e : ErrorKind}
    (h : callCommands order call = .error e) (s : State) : performCall order call s = .answered (.error e) s := by
  rw [performCall, h]

/-- Construction with a bad seed, whatever made it bad. -/
theorem performCall_construct_error (order : Config.ErrOrder) {seed : Option Value} {e : ErrorKind}
    (h : checkSeed seed = .error e) (s : State) :
    performCall order (.construct seed) s = .answered (.error e) s :=
  performCall_of_error (callCommands_construct_error order h) s

/-- Settles O54: `checkSeed` decides each kind of value, and construction follows it. -/
theorem seedNeverWrapped : Obligations.SeedNeverWrapped := by
  intro order s
  refine ⟨fun z h0 h1 => ?inRange, fun z h => ?outOfRange, fun v h => ?notInt, ?default⟩
  case inRange =>
    obtain ⟨v, hv, hseed⟩ := checkSeed_int_in_range h0 h1
    exact ⟨v, hv, callCommands_construct_ok order hseed⟩
  case outOfRange => exact performCall_construct_error order (checkSeed_int_out_of_range h) s
  case notInt => exact performCall_construct_error order (checkSeed_not_int h) s
  case default => exact callCommands_construct_ok order rfl

end Sys2Proof.Machine
end

section
/-! PROOFS. The block mixer lane by lane and the words of a block (`41_update.md` R112, R113). -/

namespace Sys2Proof.Machine

/-- `LE32` reads the four bytes from its offset and no other. -/
theorem le32At_congr {b b' : List Byte} {o : Nat}
    (h : ∀ k, k < 4 → b.getD (o + k) 0 = b'.getD (o + k) 0) : le32At b o = le32At b' o := by
  have h0 : b.getD o 0 = b'.getD o 0 := h 0 (by omega)
  rw [le32At, le32At, h0, h 1 (by omega), h 2 (by omega), h 3 (by omega)]

theorem blockWord_eq_le32At (B : List Byte) (i : Fin 4) : blockWord B i = le32At B (4 * i) := rfl

/-- Lane `i` after `BLOCK` depends on lane `i` and on bytes `4*i .. 4*i+3` only. -/
theorem blockMix_get_congr {L L' : Vector Word 4} {B B' : List Byte} {i : Fin 4} (hL : L[i] = L'[i])
    (hB : ∀ k, k < 4 → B.getD (4 * i + k) 0 = B'.getD (4 * i + k) 0) :
    (blockMix L B)[i] = (blockMix L' B')[i] := by
  rw [blockMix_get, blockMix_get, hL, blockWord_eq_le32At, blockWord_eq_le32At, le32At_congr hB]

/-- Settles O18: the lane's formula, and what it does not read. -/
theorem blockLanewise : Obligations.BlockLanewise :=
  ⟨blockMix_get, fun _ _ _ _ _ => blockMix_get_congr⟩

/-- Every word of a block lies inside it. -/
theorem blockWord_toNat {B : List Byte} (h : B.length = 16) (i : Fin 4) : (blockWord B i).toNat =
    B[4 * i.val].toNat + 2 ^ 8 * B[4 * i.val + 1].toNat + 2 ^ 16 * B[4 * i.val + 2].toNat +
      2 ^ 24 * B[4 * i.val + 3].toNat := by
  rw [blockWord_eq_le32At, le32At_toNat (by omega)]

/-- Settles O20: a word's bytes by their position in the block, and the spec's example. -/
theorem blockWords : Obligations.BlockWords :=
  ⟨fun _ _ i h => blockWord_toNat h i, by decide⟩

end Sys2Proof.Machine
end

section
/-! PROOFS. What `UPDATE` carries from call to call: the pending bytes, the blocks and the length (`41_update.md`
R114 to R116). -/

namespace Sys2Proof.Machine

/-- Settles O12: the length bound of a completed `UPDATE` rules out a wrap of the counter. -/
theorem lengthAccounting : Obligations.LengthAccounting := by
  intro data s t h
  obtain ⟨hfits, rfl⟩ := exec_update_inv h
  exact updateContext_total_toNat hfits

/-- `pending` holds the last bytes of `pending ++ data`, as many as complete no block. -/
theorem updateContext_pending_eq_last (data : List Byte) (c : Context) : (updateContext data c).pending =
    (c.pending ++ data).drop (c.pending.length + data.length - (c.pending.length + data.length) % 16) := by
  rw [updateContext_pending, List.length_append]
  congr 1
  omega

section carry

variable {data : List Byte} {c : Context}

theorem updateContext_lanes_of_short (h : c.pending.length + data.length < 16) :
    (updateContext data c).lanes = c.lanes := by
  rw [updateContext_lanes, List.length_append, Nat.div_eq_of_lt h, mixBlocks_zero]

theorem updateContext_pending_of_short (h : c.pending.length + data.length < 16) :
    (updateContext data c).pending = c.pending ++ data := by
  rw [updateContext_pending, List.length_append, Nat.div_eq_of_lt h, Nat.mul_zero, List.drop_zero]

/-- The first block is the carried bytes filled up from `data`; the others are blocks of the rest of `data`. -/
theorem updateContext_lanes_of_block (hp : c.pending.length ≤ 15) (h : 16 ≤ c.pending.length + data.length) :
    (updateContext data c).lanes = mixBlocks ((data.length - (16 - c.pending.length)) / 16)
      (blockMix c.lanes (c.pending ++ data.take (16 - c.pending.length))) (data.drop (16 - c.pending.length)) := by
  have blocks : (c.pending.length + data.length) / 16 = (data.length - (16 - c.pending.length)) / 16 + 1 := by omega
  have first : (c.pending ++ data).take 16 = c.pending ++ data.take (16 - c.pending.length) := by
    rw [List.take_append, List.take_of_length_le (by omega)]
  have rest : (c.pending ++ data).drop 16 = data.drop (16 - c.pending.length) := by
    rw [List.drop_append, List.drop_of_length_le (by omega), List.nil_append]
  rw [updateContext_lanes, List.length_append, blocks, mixBlocks_first, first, rest]

/-- Once a block completes, no old pending byte is left. -/
theorem updateContext_pending_of_block (hp : c.pending.length ≤ 15) (h : 16 ≤ c.pending.length + data.length) :
    (updateContext data c).pending = data.drop (data.length - (c.pending.length + data.length) % 16) := by
  rw [updateContext_pending_eq_last, List.drop_append, List.drop_of_length_le (by omega), List.nil_append]
  congr 1
  omega

/-- Within the pending bound no data are a short `UPDATE`, and appending them changes nothing. -/
theorem updateContext_nil (h : c.pending.wf) : updateContext [] c = c := by
  have short : c.pending.length + ([] : List Byte).length < 16 := Nat.lt_succ_of_le h
  apply Context.eq_of_items
  case h1 => rfl
  case h2 => exact updateContext_lanes_of_short short
  case h3 => rw [updateContext_pending_of_short short, List.append_nil]
  case h4 => exact BitVec.add_zero _

end carry

/-- Settles O13: adding 0 to the 64-bit counter is within the length bound. -/
theorem updateZeroLength : Obligations.UpdateZeroLength := fun s h =>
  ⟨_, exec_update_fits s.ctx.totalLength.isLt, updateContext_nil h, rfl⟩

/-- Settles O14: the context of `UPDATE`, by whether a block completes. -/
theorem updateCarry : Obligations.UpdateCarry := fun data s hfits =>
  ⟨_, exec_update_fits hfits, updateContext_pending_length data s.ctx, updateContext_pending_wf data s.ctx,
    updateContext_pending_eq_last data s.ctx,
    fun short => ⟨updateContext_lanes_of_short short, updateContext_pending_of_short short⟩,
    fun hp full => ⟨updateContext_lanes_of_block hp full, updateContext_pending_of_block hp full⟩⟩

end Sys2Proof.Machine
end

section
/-! PROOFS. `DIGEST` (`42_digest.md`): the order in which `TAIL` folds the pending bytes (R136), the stages of the
command (R130), and its purity (R138). -/

namespace Sys2Proof.Machine

/-! ## The tail -/

/-- The reads past a first word are the reads of the rest, four bytes earlier. -/
theorem read4_after_word (b0 b1 b2 b3 : Byte) (P : Memory) (a : Nat) :
    Memory.read4 (b0 :: b1 :: b2 :: b3 :: P) (a + 4) = P.read4 a := rfl

theorem read1_after_word (b0 b1 b2 b3 : Byte) (P : Memory) (a : Nat) :
    Memory.read1 (b0 :: b1 :: b2 :: b3 :: P) (a + 4) = P.read1 a := rfl

/-- The word phase of `TAIL` starts with the first word; the other words are those of the rest. -/
theorem foldl_words_after_word (acc : Word) (b0 b1 b2 b3 : Byte) (P : Memory) (q : Nat) :
    (List.range (q + 1)).foldl (fun a k => tail4 a (Memory.read4 (b0 :: b1 :: b2 :: b3 :: P) (4 * k))) acc =
      (List.range q).foldl (fun a k => tail4 a (P.read4 (4 * k))) (tail4 acc (le32 b0 b1 b2 b3)) := by
  have first : Memory.read4 (b0 :: b1 :: b2 :: b3 :: P) (4 * 0) = le32 b0 b1 b2 b3 := rfl
  rw [List.range_succ_eq_map, List.foldl_cons, List.foldl_map, first]
  simp only [Nat.mul_succ, read4_after_word]

/-- The byte phase of `TAIL` reads past the words only, so it is the byte phase of the rest. -/
theorem foldl_bytes_after_word (acc : Word) (b0 b1 b2 b3 : Byte) (P : Memory) (o n : Nat) :
    (List.range' (4 + o) n).foldl (fun a j => tail1 a (Memory.read1 (b0 :: b1 :: b2 :: b3 :: P) j)) acc =
      (List.range' o n).foldl (fun a j => tail1 a (P.read1 j)) acc := by
  rw [← List.map_add_range', List.foldl_map]
  simp only [Nat.add_comm 4, read1_after_word]

/-- A fold over the reads at all valid offsets, upward, is the fold over the bytes. -/
theorem foldl_read1 {α : Type} (f : α → Byte → α) (acc : α) (P : Memory) :
    (List.range' 0 P.length).foldl (fun a j => f a (P.read1 j)) acc = P.foldl f acc := by
  have reads : (List.range' 0 P.length).map P.read1 = P := by
    apply List.ext_getElem <;> simp +contextual [Memory.read1]
  rw [← List.foldl_map, reads]

/-- The first word of four bytes or more is folded first. -/
theorem tail_word (acc : Word) (b0 b1 b2 b3 : Byte) (P : Memory) :
    tail acc (b0 :: b1 :: b2 :: b3 :: P) = tail (tail4 acc (le32 b0 b1 b2 b3)) P := by
  have words : tailWords (P.length + 4) = tailWords P.length + 1 := Nat.add_div_right _ (by decide)
  have offset : 4 * (tailWords P.length + 1) = 4 + 4 * tailWords P.length := by omega
  have left : P.length + 4 - (4 + 4 * tailWords P.length) = P.length - 4 * tailWords P.length := by omega
  simp only [tail, List.length_cons, words, Config.WORD, offset, left, foldl_words_after_word,
    foldl_bytes_after_word]

/-- With no whole word left, the bytes are folded one at a time. -/
theorem tail_bytes {P : Memory} (h : P.length < 4) (acc : Word) : tail acc P = P.foldl tail1 acc := by
  have words : tailWords P.length = 0 := Nat.div_eq_of_lt h
  simp only [tail, words]
  exact foldl_read1 tail1 acc P

/-- Settles O27: the first word first, and single bytes once there is none. -/
theorem tailInStreamOrder : Obligations.TailInStreamOrder :=
  ⟨tail_word, fun acc _ h => tail_bytes h acc⟩

/-! ## The command -/

/-- The one rule of `DIGEST`: it completes, with its value as the response, in the context it found. -/
theorem exec_digest (s : State) : exec .digest s = .next (State.respond (.digest (digestValue s.ctx)) s) := rfl

/-- Settles O25: the rule of `DIGEST`, its value being the four stages. -/
theorem digestCompletes : Obligations.DigestCompletes :=
  exec_digest

/-! ## Purity -/

/-- A command reads nothing but the context (`10_state.md` R29): from two states that share one it makes the same
context and the same response, or is refused in both. -/
theorem exec_of_ctx_eq (i : Instr) {s s' : State} (h : s'.ctx = s.ctx) :
    (∃ c r, exec i s = .next (State.complete c r s) ∧ exec i s' = .next (State.complete c r s')) ∨
    (∃ r, exec i s = .refused r ∧ exec i s' = .refused r) := by
  obtain ⟨v, rfl, e⟩ | ⟨data, rfl, hfits, e⟩ | ⟨data, rfl, hover, e⟩ | ⟨rfl, e⟩ := exec_cases i s
  · exact .inl ⟨_, _, e, rfl⟩
  · exact .inl ⟨_, _, e, h ▸ exec_update_fits (h ▸ hfits)⟩
  · exact .inr ⟨_, e, exec_update_overflow (h ▸ hover)⟩
  · refine .inl ⟨s.ctx, .digest (digestValue s.ctx), e, ?_⟩
    rw [← h]
    exact exec_digest s'

/-- `exec_of_ctx_eq` along a run: both runs end in the same context, each having added the same responses, one for
each command, or both are refused alike. -/
theorem runCommands_of_ctx_eq (cmds : List Instr) {s s' : State} (h : s'.ctx = s.ctx) :
    (∃ u u' rs, runCommands cmds s = .next u ∧ runCommands cmds s' = .next u' ∧ u'.ctx = u.ctx ∧
      u.responses = s.responses ++ rs ∧ u'.responses = s'.responses ++ rs ∧ rs.length = cmds.length) ∨
    (∃ r, runCommands cmds s = .refused r ∧ runCommands cmds s' = .refused r) := by
  induction cmds generalizing s s' with
  | nil => exact .inl ⟨s, s', [], rfl, rfl, h, by simp, by simp, rfl⟩
  | cons i cmds ih =>
    rw [runCommands_cons, runCommands_cons]
    obtain ⟨c, r, e, e'⟩ | ⟨r, e, e'⟩ := exec_of_ctx_eq i h
    · rw [e, e', andThen_next, andThen_next]
      obtain ⟨u, u', rs, hu, hu', hctx, hrs, hrs', hlen⟩ | refused :=
        ih (s := State.complete c r s) (s' := State.complete c r s') rfl
      · exact .inl ⟨u, u', r :: rs, hu, hu', hctx, by simp [hrs], by simp [hrs'], by simp [hlen]⟩
      · exact .inr refused
    · exact .inr ⟨r, by rw [e, andThen_refused], by rw [e', andThen_refused]⟩

/-- A run with one more `DIGEST` beside the run without it: `p` are the responses up to the place of the `DIGEST`,
`q` those after it. -/
theorem runCommands_insert_digest (xs ys : List Instr) (s : State) :
    (∃ u t d p q, runCommands (xs ++ ys) s = .next u ∧ runCommands (xs ++ .digest :: ys) s = .next t ∧
      t.ctx = u.ctx ∧ u.responses = p ++ q ∧ t.responses = p ++ .digest d :: q ∧
      p.length = s.responses.length + xs.length) ∨
    (∃ r, runCommands (xs ++ ys) s = .refused r ∧ runCommands (xs ++ .digest :: ys) s = .refused r) := by
  rw [runCommands_append, runCommands_append]
  obtain ⟨m, -, rs, hm, -, -, hrs, -, hlen⟩ | ⟨r, hr, -⟩ := runCommands_of_ctx_eq xs (rfl : s.ctx = s.ctx)
  · rw [hm, andThen_next, andThen_next, runCommands_cons, exec_digest, andThen_next]
    obtain ⟨u, t, q, hu, ht, hctx, hq, hq', -⟩ | refused :=
      runCommands_of_ctx_eq ys (respond_ctx (.digest (digestValue m.ctx)) m)
    · exact .inl ⟨u, t, _, m.responses, q, hu, ht, hctx, hq, by simpa using hq', by simp [hrs, hlen]⟩
    · exact .inr refused
  · exact .inr ⟨r, by rw [hr, andThen_refused], by rw [hr, andThen_refused]⟩

/-- The second of two `DIGEST`s finds the context of the first, and so the same value. -/
theorem exec_digest_twice (s : State) : ∃ t u d, exec .digest s = .next t ∧ exec .digest t = .next u ∧
    t.responses = s.responses ++ [.digest d] ∧ u.responses = s.responses ++ [.digest d, .digest d] :=
  ⟨_, _, digestValue s.ctx, exec_digest s, exec_digest _, respond_responses _ s, by simp⟩

/-- Settles O31: reading twice, and a run with one more `DIGEST` beside the run without it. -/
theorem digestPure : Obligations.DigestPure := by
  refine ⟨exec_digest_twice, fun xs ys s u hrun => ?completes, fun xs ys s r hrun => ?refused⟩
  case completes =>
    obtain ⟨u', t, d, p, q, hu, ht⟩ | ⟨r, hr, -⟩ := runCommands_insert_digest xs ys s
    · cases hu.symm.trans hrun
      exact ⟨t, d, p, q, ht⟩
    · cases hr.symm.trans hrun
  case refused =>
    obtain ⟨u, t, d, p, q, hu, -⟩ | ⟨r', hr, hr'⟩ := runCommands_insert_digest xs ys s
    · cases hu.symm.trans hrun
    · cases hr.symm.trans hrun
      exact hr'

end Sys2Proof.Machine
end

section
/-! PROOFS. Data at the call layer (`41_update.md` R119, R120, `43_oneshot.md` R170): which values `checkData` rejects,
and what a call rejected for its data does to the machine. -/

namespace Sys2Proof.Machine

/-- A value that is no byte sequence is no fragment. -/
theorem asBytes_eq_none {v : Value} (h : ∀ b, v ≠ .bytes b) : v.asBytes = none := by
  cases v with
  | bytes b => exact absurd rfl (h b)
  | text _ | int _ | nonIntegral | object | seq _ => rfl

/-- One member that is no byte sequence spoils the whole list, wherever it stands. -/
theorem allBytes_eq_none {vs : List Value} {v : Value} (hmem : v ∈ vs) (h : ∀ b, v ≠ .bytes b) :
    allBytes vs = none := by
  induction hmem with
  | head ws => rw [allBytes, asBytes_eq_none h]
  | tail w _ ih => simp [allBytes, ih]

theorem checkData_seq_error {vs : List Value} {v : Value} (hmem : v ∈ vs) (h : ∀ b, v ≠ .bytes b) :
    checkData (some (.seq vs)) = .error .invalidArgumentType := by
  rw [checkData, allBytes_eq_none hmem h]

theorem checkData_text (chars : List Char) : checkData (some (.text chars)) = .error .invalidArgumentType := rfl

theorem checkData_missing : checkData none = .error .missingArgument := rfl

/-- With one bad argument there is no choice of error: `order` does not matter (`60_exceptions.md` R188). -/
theorem checkHash_data_error (order : Config.ErrOrder) {data seed : Option Value} {e : ErrorKind} {v : Word}
    (hdata : checkData data = .error e) (hseed : checkSeed seed = .ok v) : checkHash order data seed = .error e := by
  simp only [checkHash, hdata, hseed]

/-- An `update` with bad data, whatever made them bad. -/
theorem performCall_update_error (order : Config.ErrOrder) {data : Option Value} {e : ErrorKind}
    (h : checkData data = .error e) (s : State) : performCall order (.update data) s = .answered (.error e) s :=
  performCall_of_error (by rw [callCommands, h]) s

/-- A one-shot call with bad data and a good seed, whatever made the data bad. -/
theorem performCall_hash_data_error (order : Config.ErrOrder) {data seed : Option Value} {e : ErrorKind} {v : Word}
    (hdata : checkData data = .error e) (hseed : checkSeed seed = .ok v) (s : State) :
    performCall order (.hash data seed) s = .answered (.error e) s :=
  performCall_of_error (by rw [callCommands, checkHash_data_error order hdata hseed]) s

/-- The list of R170 is rejected for its first member already: an integer is no byte sequence. -/
theorem checkData_ints_error : checkData (some (.seq [.int 1, .int 2, .int 3])) = .error .invalidArgumentType :=
  checkData_seq_error (v := .int 1) (by simp) (by simp)

/-- Settles O58: the three data are rejected by `checkData`, and either call passes its error on. The one-shot call has
no seed argument, and the default seed is a good one. -/
theorem rejectedCalls : Obligations.RejectedCalls := by
  intro order chars s
  have update {data e} (h : checkData data = .error e) := performCall_update_error order h s
  have hash {data e} (h : checkData data = .error e) :=
    performCall_hash_data_error order h (rfl : checkSeed none = .ok Config.DEFAULT_SEED) s
  exact ⟨update checkData_ints_error, update checkData_missing, update (checkData_text chars),
    hash checkData_ints_error, hash checkData_missing, hash (checkData_text chars)⟩

end Sys2Proof.Machine
end

section
/-! PROOFS. Operations that never fail (`60_exceptions.md` R186). -/

namespace Sys2Proof.Machine

/-- Whatever a completed command answers, `INIT` and `UPDATE` answer `ok` and `DIGEST` its value: no engine command
answers an error, so the status is always 0x00. Only an `UPDATE` past the length bound does not complete. -/
theorem exec_completes_status_zero {i : Instr} {s : State}
    (hfits : ∀ data, i = .update data → s.ctx.totalLength.toNat + data.length < 2 ^ 64) :
    ∃ c r, exec i s = .next (State.complete c r s) ∧ r.status = 0x00 := by
  obtain ⟨v, rfl, e⟩ | ⟨data, rfl, -, e⟩ | ⟨data, rfl, hover, -⟩ | ⟨rfl, e⟩ := exec_cases i s
  · exact ⟨_, .ok, e, rfl⟩
  · exact ⟨_, .ok, e, rfl⟩
  · exact absurd (hfits data rfl) (Nat.not_lt.mpr hover)
  · exact ⟨s.ctx, .digest (digestValue s.ctx), e, rfl⟩

/-- Settles O37: a completed command adds its one response to those before. -/
theorem alwaysValid : Obligations.AlwaysValid := fun _ s hfits =>
  let ⟨c, r, hexec, hstatus⟩ := exec_completes_status_zero hfits
  ⟨_, r, hexec, complete_responses r c s, hstatus⟩

end Sys2Proof.Machine
end

section
/-! PROOFS. Records (`30_encoding.md` sections 2 and 3): decoding undoes encoding, encoding undoes decoding, no
beginning of a record is a command, and what stands at the front of a byte sequence is one entry. -/

namespace Sys2Proof

/-! ## One record -/

/-- The `len` field holds the length of a payload that has a record. -/
theorem ofNat_length_toNat {data : List Byte} (h : WellFormed (.update data)) :
    (BitVec.ofNat 32 data.length).toNat = data.length := by
  rw [BitVec.toNat_ofNat, Nat.mod_eq_of_lt (of_decide_eq_true h)]

/-- The decoder reads back what the encoder wrote and looks no further. -/
theorem decode_encode_append {i : Instr} (h : WellFormed i) (rest : List Byte) :
    decode (encode i ++ rest) = .command i (encode i).length := by
  cases i with
  | init seed =>
    rw [encode_init_length, encode, List.cons_append, decode_init]
    simp only [bytesLE32, List.cons_append, decodeInit, le32_extract]
  | update data =>
    rw [encode_update_length, encode, List.cons_append, decode_update]
    simp [bytesLE32, decodeUpdate, le32_extract, ofNat_length_toNat h]
  | digest => exact decode_digest rest

theorem decode_encode {i : Instr} (h : WellFormed i) : decode (encode i) = .command i (encode i).length := by
  simpa using decode_encode_append h []

/-- Settles O39: the decoder reads back the one record, whatever follows it. -/
theorem decodeEncode : Obligations.DecodeEncode := fun _ rest h => decode_encode_append h rest

/-- The bytes of an `INIT` record are the one encoding of the seed they hold. -/
theorem encode_init_le32 (b1 b2 b3 b4 : Byte) :
    encode (.init (le32 b1 b2 b3 b4)) = [opInit, b1, b2, b3, b4] := by
  rw [encode, bytesLE32_le32]

/-- A payload of the length its `len` field says is encoded with that very field. -/
theorem encode_update_le32 {b1 b2 b3 b4 : Byte} {data : List Byte} (h : data.length = (le32 b1 b2 b3 b4).toNat) :
    encode (.update data) = opUpdate :: b1 :: b2 :: b3 :: b4 :: data := by
  rw [encode, h, BitVec.ofNat_toNat, BitVec.setWidth_eq, bytesLE32_le32]; rfl

theorem wellFormed_update_le32 {b1 b2 b3 b4 : Byte} {data : List Byte}
    (h : data.length = (le32 b1 b2 b3 b4).toNat) : WellFormed (.update data) :=
  decide_eq_true (h ▸ (le32 b1 b2 b3 b4).isLt)

/-- Bytes that decode to a command begin with that command's record, which has the length the decoder reports. -/
theorem eq_encode_append_of_decode {bytes : List Byte} {i : Instr} {len : Nat} (h : decode bytes = .command i len) :
    WellFormed i ∧ len = (encode i).length ∧ ∃ rest, bytes = encode i ++ rest := by
  obtain ⟨-, e⟩ | ⟨b1, b2, b3, b4, rest, rfl, e⟩ | ⟨b1, b2, b3, b4, payload, rfl, hn, e⟩ | ⟨rest, rfl, e⟩ |
    ⟨op, rest, -, -, e⟩ | ⟨-, e⟩ := decode_cases bytes
  all_goals rw [h] at e; cases e
  · exact ⟨rfl, rfl, rest, by rw [encode_init_le32]; rfl⟩
  · have hlen := List.length_take_of_le hn
    refine ⟨wellFormed_update_le32 hlen, by rw [encode_update_length, hlen], payload.drop (le32 b1 b2 b3 b4).toNat, ?_⟩
    rw [encode_update_le32 hlen]
    simp only [List.cons_append, List.take_append_drop]
  · exact ⟨rfl, rfl, rest, rfl⟩

/-- Settles O40: the bytes are the record and what follows it, so their beginning is the record. -/
theorem encodeDecode : Obligations.EncodeDecode := by
  intro bytes i len h
  obtain ⟨hwf, rfl, rest, rfl⟩ := eq_encode_append_of_decode h
  exact ⟨hwf, encode_length_pos i, by simp, List.take_left⟩

/-! ## Records cut short, and reserved opcodes -/

/-- Only where no byte is left is there no record. -/
theorem eq_nil_of_decode_empty {bytes : List Byte} (h : decode bytes = .empty) : bytes = [] := by
  obtain ⟨hnil, -⟩ | ⟨_, _, _, _, _, -, e⟩ | ⟨_, _, _, _, _, -, -, e⟩ | ⟨_, -, e⟩ | ⟨_, _, -, -, e⟩ | ⟨-, e⟩ :=
    decode_cases bytes
  · exact hnil
  all_goals rw [h] at e; cases e

/-- Bytes that decode to a reserved opcode begin with it. -/
theorem eq_cons_of_decode_reserved {bytes : List Byte} {op : Byte} (h : decode bytes = .reserved op) :
    reservedOpcode op = true ∧ ∃ rest, bytes = op :: rest := by
  obtain ⟨-, e⟩ | ⟨_, _, _, _, _, -, e⟩ | ⟨_, _, _, _, _, -, -, e⟩ | ⟨_, -, e⟩ | ⟨op', rest, rfl, hres, e⟩ | ⟨-, e⟩ :=
    decode_cases bytes
  all_goals rw [h] at e; cases e
  exact ⟨hres, rest, rfl⟩

/-- A reserved opcode is one whatever follows it. -/
theorem decode_append_reserved {bytes : List Byte} {op : Byte} (h : decode bytes = .reserved op) (rest : List Byte) :
    decode (bytes ++ rest) = .reserved op := by
  obtain ⟨hres, more, rfl⟩ := eq_cons_of_decode_reserved h
  exact decode_reserved hres (more ++ rest)

/-- A proper beginning of a record is no complete record: what it decodes to, the whole would decode to as well, and
the whole decodes to a command of its whole length. -/
theorem decode_take_encode {i : Instr} {k : Nat} (h : WellFormed i) (hpos : 0 < k) (hk : k < (encode i).length) :
    decode ((encode i).take k) = .truncated := by
  have hlen : ((encode i).take k).length = k := List.length_take_of_le hk.le
  have whole : decode ((encode i).take k ++ (encode i).drop k) = .command i (encode i).length := by
    rw [List.take_append_drop, decode_encode h]
  cases e : decode ((encode i).take k) with
  | truncated => rfl
  | empty =>
    rw [eq_nil_of_decode_empty e] at hlen
    exact absurd hlen hpos.ne
  | command j len =>
    obtain ⟨-, rfl, rest, hrec⟩ := eq_encode_append_of_decode e
    cases whole.symm.trans (decode_append e _)
    have := congrArg List.length hrec
    rw [hlen, List.length_append] at this
    omega
  | reserved op => cases whole.symm.trans (decode_append_reserved e _)

end Sys2Proof

namespace Sys2Proof.Machine

/-- Settles O42: a step that finds only a beginning of a record reads no record there. -/
theorem truncatedRecords : Obligations.TruncatedRecords := by
  intro i k h hpos hk
  have cut := decode_take_encode h hpos hk
  refine ⟨cut, fun s hs => step_truncated ?_⟩
  rw [State.fetch, State.remaining, hs, cut]

/-- The opcodes outside `0x01` to `0x03` are the reserved ones. -/
theorem reservedOpcode_of_range {op : Byte} (h : op.toNat = 0 ∨ 4 ≤ op.toNat) : reservedOpcode op = true := by
  have other {c : Byte} (hc : 1 ≤ c.toNat ∧ c.toNat ≤ 3) : op ≠ c := by rintro rfl; omega
  have h1 := other (c := opInit) (by decide)
  have h2 := other (c := opUpdate) (by decide)
  have h3 := other (c := opDigest) (by decide)
  simp [reservedOpcode, h1, h2, h3]

/-- Settles O41: a reserved opcode is read as such wherever it stands, and a step on it raises `IllegalCommand`. -/
theorem reservedOpcodes : Obligations.ReservedOpcodes := by
  intro op rest h
  have read := decode_reserved (reservedOpcode_of_range h) rest
  refine ⟨read, fun s hs => step_reserved (op := op) ?_⟩
  rw [State.fetch, State.remaining, hs, read]

/-- Settles O38: the decoder computes on records written out. -/
theorem decodeSamples : Obligations.DecodeSamples := by
  unfold Obligations.DecodeSamples
  decide

/-! ## Entries of a program -/

/-- What the record of an entry decodes to. -/
def Item.decoded : Item → Decoded
  | .command i => .command i (encode i).length
  | .reserved op => .reserved op

theorem decode_item {item : Item} (h : item.wf = true) (rest : List Byte) :
    decode (item.bytes ++ rest) = item.decoded := by
  cases item with
  | command i => exact decode_encode_append h rest
  | reserved op => exact decode_reserved h rest

theorem Item.bytes_length_pos (item : Item) : 0 < item.bytes.length := by
  cases item with
  | command i => exact encode_length_pos i
  | reserved op => exact Nat.one_pos

/-- At the front of a byte sequence stands nothing, the record of a well-formed entry, or a record cut short. -/
theorem front_cases (bytes : List Byte) :
    bytes = [] ∨ (∃ (item : Item) (rest : List Byte), item.wf = true ∧ bytes = item.bytes ++ rest) ∨
      decode bytes = .truncated := by
  cases e : decode bytes with
  | empty => exact .inl (eq_nil_of_decode_empty e)
  | command i len =>
    obtain ⟨hwf, -, rest, hrec⟩ := eq_encode_append_of_decode e
    exact .inr (.inl ⟨.command i, rest, hwf, hrec⟩)
  | reserved op =>
    obtain ⟨hres, rest, hrec⟩ := eq_cons_of_decode_reserved e
    exact .inr (.inl ⟨.reserved op, rest, hres, hrec⟩)
  | truncated => exact .inr (.inr rfl)

@[simp] theorem programBytes_nil : programBytes [] = [] := rfl

@[simp] theorem programBytes_cons (item : Item) (items : List Item) :
    programBytes (item :: items) = item.bytes ++ programBytes items := rfl

/-- Every entry has at least one byte. -/
theorem length_le_programBytes_length (items : List Item) : items.length ≤ (programBytes items).length := by
  induction items with
  | nil => exact Nat.le_refl 0
  | cons item items ih =>
    have := item.bytes_length_pos
    rw [programBytes_cons, List.length_append, List.length_cons]
    omega

/-! ## Whole programs -/

theorem decodeFrom_nil (fuel bo : Nat) : decodeFrom fuel bo [] = ⟨[], none⟩ := by
  cases fuel <;> rfl

theorem decodeFrom_truncated {bytes : List Byte} (h : decode bytes = .truncated) (fuel bo : Nat) :
    decodeFrom (fuel + 1) bo bytes = ⟨[], some bo⟩ := by
  rw [decodeFrom, h]

/-- An entry is read, and decoding goes on just past its record. -/
theorem decodeFrom_item {item : Item} (h : item.wf = true) (fuel bo : Nat) (rest : List Byte) :
    decodeFrom (fuel + 1) bo (item.bytes ++ rest) =
      (decodeFrom fuel (bo + item.bytes.length) rest).push item := by
  rw [decodeFrom, decode_item h]
  cases item with
  | command i => simp only [Item.decoded, Item.bytes, List.drop_left]
  | reserved op => rfl

/-- Entries are read one after another, until what follows them ends the program. -/
theorem decodeFrom_items {items : List Item} (h : ∀ i ∈ items, i.wf = true) {fuel bo : Nat} {tail : List Byte}
    {cut : Option Nat} (htail : decodeFrom fuel (bo + (programBytes items).length) tail = ⟨[], cut⟩) :
    decodeFrom (items.length + fuel) bo (programBytes items ++ tail) = ⟨items, cut⟩ := by
  induction items generalizing bo with
  | nil => simpa using htail
  | cons item items ih =>
    rw [List.forall_mem_cons] at h
    rw [programBytes_cons, List.length_append, ← Nat.add_assoc] at htail
    rw [programBytes_cons, List.append_assoc, List.length_cons, Nat.add_right_comm, decodeFrom_item h.1,
      ih h.2 htail]
    rfl

theorem decodeProgram_programBytes {items : List Item} (h : ∀ i ∈ items, i.wf = true) :
    decodeProgram (programBytes items) = ⟨items, none⟩ := by
  obtain ⟨fuel, hfuel⟩ := Nat.exists_eq_add_of_le (length_le_programBytes_length items)
  simpa [decodeProgram, hfuel] using decodeFrom_items (bo := 0) h (decodeFrom_nil fuel _)

theorem decodeProgram_cut {items : List Item} (h : ∀ i ∈ items, i.wf = true) {tail : List Byte}
    (hpos : 0 < tail.length) (htail : decode tail = .truncated) :
    decodeProgram (programBytes items ++ tail) = ⟨items, some (programBytes items).length⟩ := by
  have := length_le_programBytes_length items
  obtain ⟨fuel, hfuel⟩ : ∃ fuel, (programBytes items ++ tail).length = items.length + (fuel + 1) :=
    ⟨(programBytes items ++ tail).length - items.length - 1, by rw [List.length_append]; omega⟩
  rw [decodeProgram, hfuel, decodeFrom_items h (decodeFrom_truncated htail fuel _), Nat.zero_add]

theorem runProgram_of_cut {bytes : List Byte} {offset : Nat} (h : (decodeProgram bytes).truncatedAt = some offset)
    (s : State) : runProgram bytes s = .refused (.truncatedRecord offset) := by
  rw [runProgram, h]

/-- Settles O50: the entries in order, and the beginning of a record that ends the program is the cut. -/
theorem decodeProgramBytes : Obligations.DecodeProgramBytes := by
  refine ⟨fun items h => decodeProgram_programBytes h, fun items i k h hwf hpos hk => ?_⟩
  have nonempty : 0 < ((encode i).take k).length := by rw [List.length_take_of_le hk.le]; exact hpos
  have decoded := decodeProgram_cut h nonempty (decode_take_encode hwf hpos hk)
  exact ⟨decoded, runProgram_of_cut (by rw [decoded])⟩

/-- With fuel for every byte, the decoder accounts for all of them: well-formed entries, then nothing or a record
cut short at the offset it names. -/
theorem decodeFrom_total {fuel : Nat} (bo : Nat) {bytes : List Byte} (h : bytes.length ≤ fuel) :
    ∃ items rest cut, decodeFrom fuel bo bytes = ⟨items, cut⟩ ∧ bytes = programBytes items ++ rest ∧
      (∀ e ∈ items, e.wf = true) ∧ ((rest = [] ∧ cut = none) ∨
        (decode rest = .truncated ∧ cut = some (bo + (programBytes items).length))) := by
  induction fuel generalizing bo bytes with
  | zero =>
    obtain rfl := List.length_eq_zero_iff.1 (Nat.le_zero.1 h)
    exact ⟨[], [], none, rfl, rfl, nofun, .inl ⟨rfl, rfl⟩⟩
  | succ fuel ih =>
    obtain rfl | ⟨item, more, hwf, rfl⟩ | hcut := front_cases bytes
    · exact ⟨[], [], none, rfl, rfl, nofun, .inl ⟨rfl, rfl⟩⟩
    · have := item.bytes_length_pos
      rw [List.length_append] at h
      obtain ⟨items, rest, cut, hdec, rfl, hitems, hend⟩ :=
        ih (bo + item.bytes.length) (bytes := more) (by omega)
      refine ⟨item :: items, rest, cut, by rw [decodeFrom_item hwf, hdec]; rfl, ?_,
        List.forall_mem_cons.2 ⟨hwf, hitems⟩, ?_⟩
      · rw [programBytes_cons, List.append_assoc]
      · rwa [programBytes_cons, List.length_append, ← Nat.add_assoc]
    · exact ⟨[], bytes, some bo, decodeFrom_truncated hcut fuel bo, rfl, nofun, .inr ⟨hcut, rfl⟩⟩

/-- Settles O51: the fuel of `decodeProgram` is the number of bytes, and decoding starts at offset 0. -/
theorem decoderTotal : Obligations.DecoderTotal := by
  intro bytes
  obtain ⟨items, rest, cut, hdec, hbytes, hwf, hend⟩ := decodeFrom_total 0 (Nat.le_refl bytes.length)
  rw [decodeProgram, hdec]
  exact ⟨rest, hbytes, hwf, by simpa using hend⟩

end Sys2Proof.Machine
end

section
/-! PROOFS. The arithmetic of words: rotation (`00_scope.md` R13), the round (`41_update.md` R111), the tail steps
and the avalanche (`42_digest.md` R134 to R137), each a bijection of the accumulator (R142 (e)). -/

namespace Sys2Proof.Machine

/-! ## Rotation -/

theorem getLsbD_rotl32 (x : Word) {r k : Nat} (hr : r ≤ 32) (hk : k < 32) :
    (rotl32 x r).getLsbD k = if k < r then x.getLsbD (32 - r + k) else x.getLsbD (k - r) := by
  rw [rotl32, BitVec.getLsbD_or, BitVec.getLsbD_shiftLeft, BitVec.getLsbD_ushiftRight]
  by_cases h : k < r
  · simp [h]
  · rw [BitVec.getLsbD_of_ge x (32 - r + k) (by omega)]
    simp [h, hk]

/-- Bits that stay inside the word go up by `r`; the top `r` bits come in at the bottom. -/
theorem rotl32_moves_bit (x : Word) {r k : Nat} (hr : r ≤ 31) (hk : k < 32) :
    (rotl32 x r).getLsbD ((k + r) % 32) = x.getLsbD k := by
  rw [getLsbD_rotl32 x (by omega) (Nat.mod_lt _ (by decide))]
  by_cases stays : k + r < 32
  · rw [Nat.mod_eq_of_lt stays, if_neg (by omega), Nat.add_sub_cancel]
  · have wraps : (k + r) % 32 = k + r - 32 := by omega
    rw [wraps, if_pos (by omega)]
    congr 1
    omega

/-- Settles O21: where each bit goes. -/
theorem rotateMovesBits : Obligations.RotateMovesBits := fun x _ _ _ hr hk => rotl32_moves_bit x hr hk

/-- No bit is lost in a rotation. -/
theorem rotl32_injective {r : Nat} (hr : r ≤ 31) : Function.Injective fun x => rotl32 x r := by
  intro x y h
  apply BitVec.eq_of_getLsbD_eq
  intro k hk
  rw [← rotl32_moves_bit x hr hk, ← rotl32_moves_bit y hr hk]
  exact congrArg (BitVec.getLsbD · _) h

/-! ## The multiply steps -/

/-! A prime of R7 is odd, so it has an inverse modulo `2 ^ 32`, here written out. -/

theorem mul_PRIME1_injective : Function.Injective fun x : Word => x * Config.PRIME1 :=
  (IsUnit.of_mul_eq_one 244002641 (by decide)).mul_left_injective

theorem mul_PRIME2_injective : Function.Injective fun x : Word => x * Config.PRIME2 :=
  (IsUnit.of_mul_eq_one 3066638151 (by decide)).mul_left_injective

theorem mul_PRIME3_injective : Function.Injective fun x : Word => x * Config.PRIME3 :=
  (IsUnit.of_mul_eq_one 2828982549 (by decide)).mul_left_injective

theorem mul_PRIME4_injective : Function.Injective fun x : Word => x * Config.PRIME4 :=
  (IsUnit.of_mul_eq_one 2701016015 (by decide)).mul_left_injective

theorem roundLane_injective (w : Word) : Function.Injective fun a => roundLane a w :=
  mul_PRIME1_injective.comp ((rotl32_injective (by decide)).comp (add_left_injective _))

theorem tail4_injective (w : Word) : Function.Injective fun a => tail4 a w :=
  mul_PRIME4_injective.comp ((rotl32_injective (by decide)).comp (add_left_injective _))

theorem tail1_injective (b : Byte) : Function.Injective fun a => tail1 a b :=
  mul_PRIME1_injective.comp ((rotl32_injective (by decide)).comp (add_left_injective _))

/-- Settles O17: an injection of the finite set of words is onto. -/
theorem roundBijective : Obligations.RoundBijective := fun w =>
  Finite.injective_iff_bijective.1 (roundLane_injective w)

/-- Settles O16: the formula, its corner cases, and the worked values by computation. -/
theorem roundFormula : Obligations.RoundFormula := by
  refine ⟨fun a w => rfl, by decide, fun a => ?_, by decide, by decide, by decide, by decide⟩
  rw [roundLane, zero_mul, add_zero, Config.ROT_ROUND]

/-! ## The avalanche -/

theorem getLsbD_xorShift (x : Word) (r k : Nat) :
    (xorShift x r).getLsbD k = (x.getLsbD k ^^ x.getLsbD (r + k)) := by
  rw [xorShift, BitVec.getLsbD_xor, BitVec.getLsbD_ushiftRight]

/-- A bit of an xor-shift is the bit there flipped by a higher one, so the bits are found from the top down. -/
theorem xorShift_injective {r : Nat} (hr : 0 < r) : Function.Injective fun x => xorShift x r := by
  intro x y h
  have top (d : Nat) : ∀ k, 32 ≤ k + d → x.getLsbD k = y.getLsbD k := by
    induction d with
    | zero => exact fun k hk => by rw [BitVec.getLsbD_of_ge x k hk, BitVec.getLsbD_of_ge y k hk]
    | succ d ih =>
      intro k hk
      have flipped : (xorShift x r).getLsbD k = (xorShift y r).getLsbD k := congrArg (BitVec.getLsbD · k) h
      rw [getLsbD_xorShift, getLsbD_xorShift, ih (r + k) (by omega)] at flipped
      exact Bool.xor_left_inj.1 flipped
  exact BitVec.eq_of_getLsbD_eq fun k _ => top 32 k (by omega)

theorem avalanche_injective : Function.Injective avalanche := by
  have first := xorShift_injective (r := Config.SHIFT_AV[0]) (by decide)
  have second := xorShift_injective (r := Config.SHIFT_AV[1]) (by decide)
  have third := xorShift_injective (r := Config.SHIFT_AV[2]) (by decide)
  exact third.comp (mul_PRIME3_injective.comp (second.comp (mul_PRIME2_injective.comp first)))

/-- Settles O28: every step of the avalanche loses nothing, and an injection of the finite set of words is onto. -/
theorem avalancheBijective : Obligations.AvalancheBijective :=
  ⟨Finite.injective_iff_bijective.1 avalanche_injective, by decide⟩

/-! ## The tail -/

/-- A fold of steps that lose nothing loses nothing. -/
theorem foldl_injective {α β : Type} {f : α → β → α} (hf : ∀ b, Function.Injective fun a => f a b) (l : List β) :
    Function.Injective fun a => l.foldl f a := by
  induction l with
  | nil => exact fun _ _ h => h
  | cons b l ih => exact ih.comp (hf b)

theorem tail_injective (P : Memory) : Function.Injective fun acc => tail acc P :=
  (foldl_injective (fun _ => tail1_injective _) _).comp (foldl_injective (fun _ => tail4_injective _) _)

end Sys2Proof.Machine
end

section
/-! PROOFS. Reset and the commands: what each writes, answers and leaves alone (`10_state.md` R22, R27, R29, R33,
`40_init.md` R100 to R102, `30_encoding.md` R80, `70_reset_and_hazards.md` R210). -/

namespace Sys2Proof.Machine

/-- The one rule of `INIT`: it completes, in a context made of its operand alone. -/
theorem exec_init (v : Word) (s : State) : exec (.init v) s = .next (State.complete (Context.seeded v) .ok s) := rfl

/-- Reset is `INIT 0` (decision D2). -/
theorem reset_ctx_eq_seeded : State.reset.ctx = Context.seeded 0 := rfl

/-- Settles O1: the table by computation; the context of `INIT 0` is that of reset. -/
theorem resetValues : Obligations.ResetValues :=
  ⟨rfl, by decide, rfl, rfl, rfl, rfl, rfl, rfl, rfl, fun s => ⟨_, exec_init 0 s, reset_ctx_eq_seeded.symm⟩⟩

/-- Settles O2: a reset writes the context only, and with what `INIT 0` gives. -/
theorem resetAction : Obligations.ResetAction := fun s =>
  ⟨⟨_, exec_init 0 s, reset_ctx_eq_seeded⟩, applyReset_responses s, applyReset_ci s, applyReset_bo s,
    applyReset_program s⟩

theorem seedLanes_eq (v : Word) : Config.seedLanes v =
    #v[v + Config.PRIME1 + Config.PRIME2, v + Config.PRIME2, v, v - Config.PRIME1] :=
  calc Config.seedLanes v
    _ = #v[v + (Config.PRIME1 + Config.PRIME2), v + Config.PRIME2, v + 0, v + (0 - Config.PRIME1)] := rfl
    _ = _ := by rw [add_zero, zero_sub, ← sub_eq_add_neg, ← add_assoc]

/-- Settles O7: the rule of `INIT`, with the lanes it seeds written out. -/
theorem initCompletes : Obligations.InitCompletes := fun v s => by
  rw [exec_init, ← seedLanes_eq]
  rfl

/-- Settles O8: `Context.seeded w` is a context of `w` alone. -/
theorem initForgets : Obligations.InitForgets := fun v w s s' =>
  ⟨_, _, _, exec_init v s, exec_init w _, exec_init w s', rfl⟩

/-- What a command answers, in the context it finds (`30_encoding.md` R80). -/
def answer (c : Context) : Instr → Response
  | .init _ => .ok
  | .update _ => .ok
  | .digest => .digest (digestValue c)

/-- The context a command that completes leaves. -/
def contextAfter (c : Context) : Instr → Context
  | .init v => Context.seeded v
  | .update data => updateContext data c
  | .digest => c

/-- A command that completes ends in the context and with the response of its kind, and does nothing else. -/
theorem exec_eq_complete {i : Instr} {s t : State} (h : exec i s = .next t) :
    t = State.complete (contextAfter s.ctx i) (answer s.ctx i) s := by
  obtain ⟨v, rfl, e⟩ | ⟨data, rfl, -, e⟩ | ⟨data, rfl, -, e⟩ | ⟨rfl, e⟩ := exec_cases i s
  all_goals rw [h] at e; cases e
  all_goals rfl

theorem contextAfter_seed {i : Instr} (h : isInit i = false) (c : Context) : (contextAfter c i).seed = c.seed := by
  cases i with
  | init v => cases h
  | update data => rfl
  | digest => rfl

/-- Settles O9: a command that completes writes what `State.complete` writes; the seed and the context by its kind. -/
theorem commandFrame : Obligations.CommandFrame := by
  intro i s t h
  obtain rfl := exec_eq_complete h
  refine ⟨fun hi => contextAfter_seed hi s.ctx, ?_, complete_program _ _ s, complete_bo _ _ s, complete_ci _ _ s,
    answer s.ctx i, complete_responses _ _ s⟩
  rintro rfl
  rfl

/-- Settles O36: from one context a command completes with one context and response, or is refused, whatever
stands around it. -/
theorem dependsOnContextOnly : Obligations.DependsOnContextOnly := by
  intro i s s' hctx
  obtain ⟨c, r, e, e'⟩ | refused := exec_of_ctx_eq i hctx.symm
  · exact .inl ⟨_, _, r, e, e', rfl, complete_responses r c s, complete_responses r c s'⟩
  · exact .inr refused

/-- Settles O43: the bytes by computation, and the response of each kind of command. -/
theorem responseRecords : Obligations.ResponseRecords := by
  refine ⟨rfl, rfl, rfl, rfl, rfl, by decide, fun v => rfl, fun i s t h => ?_⟩
  obtain rfl := exec_eq_complete h
  cases i <;> rfl

end Sys2Proof.Machine
end

section
/-! PROOFS. Steps: the entry a step executes, where it stops, and running a byte-form program as a list of entries
(`10_state.md` R27, `30_encoding.md` R77 to R80, `70_reset_and_hazards.md` R215). -/

namespace Sys2Proof.Machine

/-! ## One step -/

/-- Settles O46: the state with the offset moved is the one `State.advance` makes. -/
theorem stepRunsDecoded : Obligations.StepRunsDecoded := fun _ _ _ h => step_command h

/-- A step executes the entry whose record stands at the offset, with the offset moved past it. -/
theorem step_item {s : State} {item : Item} {rest : List Byte} (h : item.wf = true)
    (hs : s.remaining = item.bytes ++ rest) : step s = execItem item (s.advance item.bytes.length) := by
  have read : s.fetch = item.decoded := by rw [State.fetch, hs, decode_item h]
  cases item with
  | command i => exact step_command read
  | reserved op => exact step_reserved read

/-- Everything a step can do: idle past the last byte, one well-formed entry, or a refusal at a cut record. -/
theorem step_cases (s : State) :
    (s.program.length ≤ s.bo ∧ step s = .next s) ∨
    (∃ (item : Item) (rest : List Byte), item.wf = true ∧ s.remaining = item.bytes ++ rest ∧
      step s = execItem item (s.advance item.bytes.length)) ∨
    (s.fetch = .truncated ∧ step s = .refused (.truncatedRecord s.bo)) := by
  obtain hnil | ⟨item, rest, hwf, hrec⟩ | hcut := front_cases s.remaining
  · exact .inl ⟨List.drop_eq_nil_iff.1 hnil, step_empty (by rw [State.fetch, hnil, decode])⟩
  · exact .inr (.inl ⟨item, rest, hwf, hrec, step_item hwf hrec⟩)
  · exact .inr (.inr ⟨hcut, step_truncated hcut⟩)

/-- A record found at the offset lies inside the program. -/
theorem bo_add_le_of_remaining {s : State} {rec rest : List Byte} (hpos : 0 < rec.length)
    (h : s.remaining = rec ++ rest) : s.bo + rec.length ≤ s.program.length := by
  have := congrArg List.length h
  rw [State.remaining, List.length_drop, List.length_append] at this
  omega

/-- An entry is refused only as an `UPDATE` past the length bound. -/
theorem execItem_refused_cases {item : Item} {s : State} {r : Refusal} (h : execItem item s = .refused r) :
    ∃ data, item = .command (.update data) ∧ 2 ^ 64 ≤ s.ctx.totalLength.toNat + data.length ∧
      r = .totalLengthOverflow := by
  cases item with
  | reserved op => cases h
  | command i =>
    have h : exec i s = .refused r := h
    obtain ⟨v, rfl, e⟩ | ⟨data, rfl, -, e⟩ | ⟨data, rfl, hover, e⟩ | ⟨rfl, e⟩ := exec_cases i s
    all_goals rw [h] at e; cases e
    exact ⟨data, rfl, hover, rfl⟩

/-- Settles O47: an idle step is not refused, an entry only past the bound, a cut record at its offset; there is no
fault to stop with. -/
theorem stepStops : Obligations.StepStops := by
  refine ⟨fun s r h => ?_, fun s f => nomatch f⟩
  obtain ⟨-, e⟩ | ⟨item, rest, hwf, hrec, e⟩ | ⟨hcut, e⟩ := step_cases s
  · cases h.symm.trans e
  · obtain ⟨data, rfl, hover, rfl⟩ := execItem_refused_cases (e.symm.trans h)
    refine .inr ⟨data, (encode (.update data)).length, ?_, hover, rfl⟩
    exact (congrArg decode hrec).trans (decode_item hwf rest)
  · cases h.symm.trans e
    exact .inl ⟨hcut, rfl⟩

theorem step_of_exhausted {s : State} (h : s.program.length ≤ s.bo) : step s = .next s :=
  step_empty (by rw [State.fetch, State.remaining, List.drop_eq_nil_of_le h, decode])

/-- A step that completes before the program's end has executed one entry and moved past its record. -/
theorem step_moves_forward {s t : State} (hbo : s.bo < s.program.length) (h : step s = .next t) :
    s.bo < t.bo ∧ t.bo ≤ s.program.length ∧ t.program = s.program ∧ t.ci = s.ci + 1 ∧
      ∃ r, t.responses = s.responses ++ [r] := by
  obtain ⟨hend, -⟩ | ⟨item, rest, -, hrec, e⟩ | ⟨-, e⟩ := step_cases s
  · exact absurd hbo (Nat.not_lt.2 hend)
  · have hexec := e.symm.trans h
    have hpos := item.bytes_length_pos
    have inside := bo_add_le_of_remaining hpos hrec
    obtain ⟨hprog, hbo'⟩ := execItem_frame hexec
    obtain ⟨r, hresp, hci⟩ := execItem_response hexec
    rw [hbo', advance_bo]
    exact ⟨by omega, inside, hprog, hci, r, hresp⟩
  · cases h.symm.trans e

/-- Settles O48: past the last byte a step is idle; before it, one that completes has executed one entry. -/
theorem oneResponsePerStep : Obligations.OneResponsePerStep := fun _ =>
  ⟨step_of_exhausted, fun _ => step_moves_forward⟩

/-! ## A record placed at the offset -/

theorem placeRecord_drop (rec program : List Byte) (bo : Nat) :
    (placeRecord rec program bo).drop bo = rec ++ program.drop (bo + rec.length) := by
  have before : (program.take bo ++ List.replicate (bo - program.length) 0).length = bo := by
    rw [List.length_append, List.length_take, List.length_replicate]
    omega
  rw [placeRecord, List.append_assoc]
  exact List.drop_left' before

theorem decode_recordOfWord {nbits w : Nat} {i : Instr} (h : decodeTableWord nbits w = some i) :
    ∃ len, decode (recordOfWord nbits w) = .command i len := by
  unfold decodeTableWord at h
  split at h
  case h_1 j len e => cases h; exact ⟨len, e⟩
  case h_2 => cases h

/-- Settles O52: the placed record stands at the offset, and what follows it does not change what it decodes to. -/
theorem fetchWordRuns : Obligations.FetchWordRuns := by
  intro s nbits w i h
  obtain ⟨len, e⟩ := decode_recordOfWord h
  refine ⟨len, step_command ?_⟩
  have placed : (s.withFetchWord nbits w).remaining = recordOfWord nbits w ++
      s.program.drop (s.bo + (recordOfWord nbits w).length) := placeRecord_drop _ _ _
  rw [State.fetch, placed, decode_append e]

/-! ## Running a program in byte form -/

/-- An entry does not read the offset, so moving it before or after is the same. -/
theorem execItem_advance (item : Item) (n : Nat) (s : State) :
    execItem item (s.advance n) = andThen (execItem item s) fun t => .next (t.advance n) := by
  cases item with
  | reserved op => rfl
  | command i =>
    obtain ⟨c, r, e, e'⟩ | ⟨r, e, e'⟩ := exec_of_ctx_eq i (advance_ctx n s)
    · rw [execItem, execItem, e, e']; rfl
    · rw [execItem, execItem, e, e']; rfl

theorem runItems_advance (items : List Item) (n : Nat) (s : State) :
    runItems items (s.advance n) = andThen (runItems items s) fun t => .next (t.advance n) := by
  induction items generalizing s with
  | nil => rfl
  | cons item items ih =>
    rw [runItems_cons, runItems_cons, execItem_advance, andThen_assoc, andThen_assoc]
    congr 1
    funext t
    exact ih t

/-- Steps over the records of well-formed entries execute those entries, in a state with the offset past them all. -/
theorem runSteps_of_remaining {items : List Item} (h : ∀ i ∈ items, i.wf = true) {s : State} {rest : List Byte}
    (hs : s.remaining = programBytes items ++ rest) :
    runSteps items.length s = runItems items (s.advance (programBytes items).length) := by
  induction items generalizing s with
  | nil => rfl
  | cons item items ih =>
    rw [List.forall_mem_cons] at h
    rw [programBytes_cons, List.append_assoc] at hs
    have both : s.advance (programBytes (item :: items)).length =
        (s.advance item.bytes.length).advance (programBytes items).length := by
      simp only [programBytes_cons, List.length_append, State.advance, Nat.add_assoc]
    rw [List.length_cons, runSteps_succ, step_item h.1 hs, runItems_cons, both,
      execItem_advance item (programBytes items).length, andThen_assoc]
    cases e : execItem item (s.advance item.bytes.length) with
    | next t =>
      obtain ⟨hprog, hbo⟩ := execItem_frame e
      have hrest : t.remaining = programBytes items ++ rest := by
        rw [State.remaining, hprog, hbo, advance_program, advance_bo, ← List.drop_drop]
        exact (congrArg (List.drop _) hs).trans List.drop_left
      exact ih h.2 hrest
    | fault f => rfl
    | refused r => rfl

/-- What completes in two parts completes in each. -/
theorem andThen_eq_next {o : Host.Outcome State Fault Refusal} {f : State → Host.Outcome State Fault Refusal}
    {t : State} (h : andThen o f = .next t) : ∃ u, o = .next u ∧ f u = .next t := by
  cases o with
  | next u => exact ⟨u, rfl, h⟩
  | fault r => cases r
  | refused r => cases h

/-- A run of entries writes neither program nor offset, and answers each entry once. -/
theorem runItems_frame {items : List Item} {s t : State} (h : runItems items s = .next t) :
    t.program = s.program ∧ t.bo = s.bo ∧ t.ci = s.ci + items.length ∧
      t.responses.length = s.responses.length + items.length := by
  induction items generalizing s with
  | nil => cases h; exact ⟨rfl, rfl, rfl, rfl⟩
  | cons item items ih =>
    rw [runItems_cons] at h
    obtain ⟨u, e, h⟩ := andThen_eq_next h
    obtain ⟨hprog, hbo⟩ := execItem_frame e
    obtain ⟨r, hresp, hci⟩ := execItem_response e
    obtain ⟨hprog', hbo', hci', hlen'⟩ := ih h
    refine ⟨hprog'.trans hprog, hbo'.trans hbo, ?_, ?_⟩
    · rw [hci', hci, List.length_cons]; omega
    · rw [hlen', hresp, List.length_append, List.length_singleton, List.length_cons]; omega

theorem runProgram_of_whole {bytes : List Byte} {items : List Item} (h : decodeProgram bytes = ⟨items, none⟩)
    (s : State) : runProgram bytes s = runSteps items.length (s.load bytes) := by
  rw [runProgram, h]

/-- Settles O49: the steps are the entries with the offset past the last record; a run that completes has counted and
answered each entry, from the `0` and the empty list that loading leaves. -/
theorem byteFormRun : Obligations.ByteFormRun := by
  intro items s h
  have whole := runProgram_of_whole (decodeProgram_programBytes h) s
  have steps : runSteps items.length (s.load (programBytes items)) =
      runItems items ((s.load (programBytes items)).advance (programBytes items).length) :=
    runSteps_of_remaining h (List.append_nil _).symm
  refine ⟨?_, whole, fun t ht => ?_⟩
  · rw [steps, runItems_advance]
    cases e : runItems items (s.load (programBytes items)) with
    | next t =>
      obtain ⟨-, hbo, -, -⟩ := runItems_frame e
      have hbo : t.bo = 0 := hbo
      simp only [andThen_next, State.advance, hbo, Nat.zero_add]
    | fault f => rfl
    | refused r => rfl
  · rw [whole, steps] at ht
    obtain ⟨hprog, hbo, hci, hlen⟩ := runItems_frame ht
    refine ⟨?_, ?_, ?_⟩
    · rw [State.finished, hprog, hbo]
      exact decide_eq_true (by simp [State.load])
    · exact hci.trans (Nat.zero_add _)
    · exact hlen.trans (Nat.zero_add _)

end Sys2Proof.Machine
end

section
/-! PROOFS. `UPDATE` (`41_update.md`): its state as the pseudocode has it (R110), lane by lane (R112), the bytes it
stores (R114), its streaming form (R121), and chunks of one stream (`43_oneshot.md` R164). -/

namespace Sys2Proof.Machine

/-! ## The state it leaves -/

/-- Settles O10: inside the bound the state is that of `updateContext`, and outside there is none. -/
theorem updateCompletes : Obligations.UpdateCompletes := fun data s =>
  ⟨fun hfits => ⟨_, exec_update_fits hfits, updateContext_seed data s.ctx, updateContext_lanes data s.ctx,
    updateContext_pending data s.ctx, updateContext_pending_length data s.ctx, updateContext_total_toNat hfits,
    complete_program _ _ s, complete_bo _ _ s, complete_ci _ _ s, complete_responses _ _ s⟩,
    exec_update_overflow⟩

/-- Below the block size, block `j` holds the bytes of the buffer from `16*j` on. -/
theorem blockAt_getD (buf : List Byte) (j : Nat) {a : Nat} (ha : a < 16) :
    (blockAt buf j).getD a 0 = buf.getD (16 * j + a) 0 := by
  rw [blockAt, List.getD_eq_getElem?_getD, List.getElem?_take_of_lt ha, List.getElem?_drop,
    ← List.getD_eq_getElem?_getD]

/-- Word `i` of block `j` stands in the buffer at `16*j + 4*i` (`20_memory.md` R52). -/
theorem blockWord_blockAt (buf : List Byte) (j : Nat) (i : Fin 4) :
    blockWord (blockAt buf j) i = le32At buf (16 * j + 4 * i) := by
  have byte (k : Nat) (hk : k < 4) : (blockAt buf j).getD (4 * i + k) 0 = buf.getD (16 * j + 4 * i + k) 0 := by
    rw [blockAt_getD buf j (by omega), Nat.add_assoc]
  have byte0 : (blockAt buf j).getD (4 * i) 0 = buf.getD (16 * j + 4 * i) 0 := byte 0 (by omega)
  rw [blockWord_eq_le32At, le32At, le32At, byte0, byte 1 (by omega), byte 2 (by omega), byte 3 (by omega)]

/-- The block loop works on each lane by itself. -/
theorem mixBlocks_get (k : Nat) (L : Vector Word 4) (buf : List Byte) (i : Fin 4) :
    (mixBlocks k L buf)[i] =
      (List.range k).foldl (fun a j => roundLane a (le32At buf (16 * j + 4 * i))) L[i] := by
  induction k with
  | zero => rfl
  | succ k ih =>
    rw [mixBlocks_last, blockMix_get, ih, blockWord_blockAt, List.range_succ, List.foldl_append]
    rfl

/-- Settles O11: the block loop of `UPDATE`, lane by lane. -/
theorem updateLaneByLane : Obligations.UpdateLaneByLane := by
  intro data s t i h
  obtain ⟨-, rfl⟩ := exec_update_inv h
  rw [complete_ctx, updateContext_lanes, mixBlocks_get, List.length_append]

/-- A read past `n` dropped bytes is a read `n` bytes further on. -/
theorem read1_drop (buf : List Byte) (n a : Nat) : Memory.read1 (buf.drop n) a = buf.getD (n + a) 0 := by
  rw [Memory.read1, List.getD_eq_getElem?_getD, List.getElem?_drop, ← List.getD_eq_getElem?_getD]

/-- Settles O15: the pending bytes are the buffer past its complete blocks, the whole of it while there is none. -/
theorem updateStores : Obligations.UpdateStores := by
  intro data s t h
  obtain ⟨-, rfl⟩ := exec_update_inv h
  refine ⟨fun a _ => ?_, fun short => ?_⟩
  · rw [complete_ctx, updateContext_pending, read1_drop, List.length_append]
  · rw [complete_ctx, updateContext_pending_of_short short]
    refine ⟨fun a ha => List.getD_append _ _ _ _ ha, fun k _ => ?_⟩
    rw [Memory.read1, List.getD_append_right _ _ _ _ (Nat.le_add_right _ k), Nat.add_sub_cancel_left]

/-! ## The streaming form -/

/-- With nothing pending the blocks and the rest are those of the data alone. -/
theorem updateContext_of_pending_nil {data : List Byte} {c : Context} (h : c.pending = []) :
    (updateContext data c).lanes = mixBlocks (data.length / 16) c.lanes data ∧
      (updateContext data c).pending = data.drop (16 * (data.length / 16)) := by
  rw [updateContext_lanes, updateContext_pending, h]
  exact ⟨rfl, rfl⟩

/-- What phase 3 keeps of the data once a carried block has taken its bytes, cut at the end instead. -/
theorem updateContext_pending_of_carried {data : List Byte} {c : Context} (hp : c.pending.length ≤ 15)
    (h : 16 ≤ c.pending.length + data.length) :
    (updateContext data c).pending = (data.drop (16 - c.pending.length)).drop
      (16 * ((data.length - (16 - c.pending.length)) / 16)) := by
  rw [updateContext_pending_of_block hp h, List.drop_drop]
  congr 1
  omega

/-- Settles O22: phase 0 or phase 3 stashes what stays pending, phases 1 and 2 mix in the blocks; with a carried
block its bytes come first, without one all blocks come from the data. -/
theorem streamingFormAgrees : Obligations.StreamingFormAgrees := by
  intro data c hwf
  have hp : c.pending.length ≤ 15 := hwf
  have stashed (bytes : List Byte) : stash [] 0 bytes = bytes := stash_length [] bytes
  rw [updateStreaming]
  by_cases short : c.pending.length + data.length < 16
  · rw [if_pos short, stash_length]
    exact Context.eq_of_items rfl (updateContext_lanes_of_short short).symm
      (updateContext_pending_of_short short).symm rfl
  rw [if_neg short]
  by_cases carried : 0 < c.pending.length
  · simp only [if_pos carried, Config.BLOCK]
    rw [streamBlocks_eq _ (by rw [List.length_drop]; omega), stashed, List.length_drop]
    exact Context.eq_of_items rfl (updateContext_lanes_of_block hp (by omega)).symm
      (updateContext_pending_of_carried hp (by omega)).symm rfl
  · obtain ⟨hlanes, hpending⟩ := updateContext_of_pending_nil (data := data)
      (List.length_eq_zero_iff.1 (Nat.eq_zero_of_not_pos carried))
    simp only [if_neg carried, List.drop_zero]
    rw [streamBlocks_eq _ (Nat.le_refl _), stashed]
    exact Context.eq_of_items rfl hlanes.symm hpending.symm rfl

/-! ## Chunks of one stream -/

/-- Two updates are one: the blocks the first completes are blocks of the whole, and what it leaves pending, with the
second chunk after it, is the rest of the whole. -/
theorem updateContext_append (a b : List Byte) (c : Context) :
    updateContext b (updateContext a c) = updateContext (a ++ b) c := by
  have first : 16 * ((c.pending ++ a).length / 16) ≤ (c.pending ++ a).length := Nat.mul_div_le _ _
  have buffer : (updateContext a c).pending ++ b =
      (c.pending ++ (a ++ b)).drop (16 * ((c.pending ++ a).length / 16)) := by
    rw [updateContext_pending, drop_blocks_append first, List.append_assoc]
  have blocks : (c.pending ++ (a ++ b)).length / 16 =
      (c.pending ++ a).length / 16 + ((updateContext a c).pending ++ b).length / 16 := by
    rw [buffer, List.length_drop, ← List.append_assoc, List.length_append]
    omega
  apply Context.eq_of_items
  case h1 => rfl
  case h2 =>
    rw [updateContext_lanes, updateContext_lanes, updateContext_lanes, blocks, mixBlocks_add, ← buffer,
      ← List.append_assoc, mixBlocks_append_left first]
  case h3 =>
    rw [updateContext_pending, updateContext_pending (a ++ b), blocks, buffer, List.drop_drop, Nat.mul_add]
  case h4 =>
    rw [updateContext_totalLength, updateContext_totalLength, updateContext_totalLength, List.length_append,
      BitVec.ofNat_add, BitVec.add_assoc]

/-- Settles O23: both forms count the same bytes, and the first chunk alone may already be past the bound. -/
theorem chunkInvariance : Obligations.ChunkInvariance := by
  intro a b s
  rw [List.length_append]
  refine ⟨fun hfits => ?_, fun hover => ⟨?_, exec_update_overflow (by rwa [List.length_append])⟩⟩
  · have total := updateContext_total_toNat (data := a) (c := s.ctx) (by omega)
    exact ⟨_, _, _, exec_update_fits (by omega), exec_update_fits (by rw [complete_ctx, total]; omega),
      exec_update_fits (by rw [List.length_append]; omega), updateContext_append a b s.ctx⟩
  · rw [runCommands_cons]
    by_cases hfits : s.ctx.totalLength.toNat + a.length < 2 ^ 64
    · have total := updateContext_total_toNat hfits
      rw [exec_update_fits hfits, andThen_next, runCommands_cons,
        exec_update_overflow (by rw [complete_ctx, total]; omega), andThen_refused]
    · rw [exec_update_overflow (Nat.not_lt.1 hfits), andThen_refused]

@[simp] theorem streamOf_nil : streamOf [] = [] := rfl

@[simp] theorem streamOf_cons (i : Instr) (cmds : List Instr) :
    streamOf (i :: cmds) = streamBytes i ++ streamOf cmds := rfl

/-- The stream of a list of `UPDATE`s is the concatenation of their data. -/
theorem streamOf_updates (fs : List (List Byte)) : streamOf (fs.map .update) = fs.flatten := by
  induction fs with
  | nil => rfl
  | cons f fs ih => rw [List.map_cons, streamOf_cons, ih]; rfl

theorem isInit_updates (fs : List (List Byte)) : ∀ i ∈ fs.map Instr.update, isInit i = false :=
  List.forall_mem_map.2 fun _ _ => rfl

/-- `UPDATE`s and `DIGEST`s in any order go on with one stream: on a context that is the one of an `UPDATE D`, they
complete under the bound, with the context of an `UPDATE` of `D` and all their data. -/
theorem runCommands_of_updated {cmds : List Instr} (hno : ∀ i ∈ cmds, isInit i = false) {c : Context}
    {D : List Byte} {s : State} (hs : s.ctx = updateContext D c)
    (hfits : c.totalLength.toNat + D.length + (streamOf cmds).length < 2 ^ 64) :
    ∃ t, runCommands cmds s = .next t ∧ t.ctx = updateContext (D ++ streamOf cmds) c := by
  induction cmds generalizing D s with
  | nil => exact ⟨s, rfl, by rw [hs, streamOf_nil, List.append_nil]⟩
  | cons i cmds ih =>
    rw [List.forall_mem_cons] at hno
    rw [streamOf_cons, List.length_append] at hfits
    rw [runCommands_cons, streamOf_cons, ← List.append_assoc]
    cases i with
    | init v => cases hno.1
    | update data =>
      have hfits : c.totalLength.toNat + D.length + (data.length + (streamOf cmds).length) < 2 ^ 64 := hfits
      have total : s.ctx.totalLength.toNat = c.totalLength.toNat + D.length := by
        rw [hs, updateContext_total_toNat (by omega)]
      rw [exec_update_fits (by omega), andThen_next]
      refine ih hno.2 ?_ ?_
      · rw [complete_ctx, hs, updateContext_append]; rfl
      · rw [streamBytes, List.length_append]; omega
    | digest =>
      rw [exec_digest, andThen_next, streamBytes, List.append_nil]
      refine ih hno.2 (by rw [respond_ctx, hs]) ?_
      rw [streamBytes, List.length_nil, Nat.zero_add] at hfits
      exact hfits

/-- Any fragments, run one after another, leave the context of one `UPDATE` of their concatenation. Within the pending
bound there may be none; otherwise the first one brings the bound about. -/
theorem runCommands_updates {fs : List (List Byte)} {s : State} (h : s.ctx.pending.wf ∨ fs ≠ [])
    (hfits : s.ctx.totalLength.toNat + fs.flatten.length < 2 ^ 64) :
    ∃ t, runCommands (fs.map .update) s = .next t ∧ t.ctx = updateContext fs.flatten s.ctx := by
  cases fs with
  | nil =>
    have hwf := h.resolve_right (not_not_intro rfl)
    exact ⟨s, rfl, (updateContext_nil hwf).symm⟩
  | cons f fs =>
    rw [List.flatten_cons, List.length_append] at hfits
    rw [List.map_cons, runCommands_cons, exec_update_fits (by omega), andThen_next, List.flatten_cons,
      ← streamOf_updates fs]
    refine runCommands_of_updated (isInit_updates fs) rfl ?_
    rw [streamOf_updates]
    omega

/-- Settles O24: the fragments run as one `UPDATE`, and equal contexts have equal digests. -/
theorem fragmentsAsOne : Obligations.FragmentsAsOne := by
  intro fs s hwf hfits
  obtain ⟨t, hrun, hctx⟩ := runCommands_updates (.inl hwf) hfits
  exact ⟨t, _, hrun, exec_update_fits hfits, hctx, congrArg digestValue hctx⟩

end Sys2Proof.Machine
end

section
/-! PROOFS. What `DIGEST` computes: its stages with their constants (`42_digest.md` R131 to R137), what it does not
read, and its injectivity in the seed on the short path (R139, `43_oneshot.md` R168). -/

namespace Sys2Proof.Machine

/-! ## The stages -/

theorem start_of_short {n : Len64} (h : n.toNat < 16) (v : Word) (L : Vector Word 4) :
    start v L n = v + Config.PRIME5 :=
  if_pos (decide_eq_true h)

theorem start_of_long {n : Len64} (h : 16 ≤ n.toNat) (v : Word) (L : Vector Word 4) :
    start v L n = Config.merge L :=
  if_neg (by simpa [shortInput] using h)

theorem lenMix_toNat (acc : Word) (n : Len64) : (lenMix acc n).toNat = (acc.toNat + n.toNat) % 2 ^ 32 := by
  rw [lenMix, BitVec.toNat_add, BitVec.extractLsb'_toNat, Nat.shiftRight_zero, Nat.add_mod_mod]

/-- Settles O26: each stage by its formula. -/
theorem digestStages : Obligations.DigestStages :=
  ⟨fun v L _ h => start_of_short h v L, fun v L _ h => start_of_long h v L, lenMix_toNat, fun _ _ => rfl,
    fun acc b => by rw [tail1, ← BitVec.ofNat_toNat]; rfl, fun _ => ⟨_, _, rfl, rfl, rfl⟩⟩

/-- The value of `DIGEST` on either path, by the length the context counts. -/
theorem digestValue_of_short {c : Context} (h : c.totalLength.toNat < 16) :
    digestValue c = avalanche (tail (lenMix (c.seed + Config.PRIME5) c.totalLength) c.pending) := by
  rw [digestValue, start_of_short h]

theorem digestValue_of_long {c : Context} (h : 16 ≤ c.totalLength.toNat) :
    digestValue c = avalanche (tail (lenMix (Config.merge c.lanes) c.totalLength) c.pending) := by
  rw [digestValue, start_of_long h]

/-- Settles O30: the long path has no seed in it and the short path no lanes. -/
theorem digestReads : Obligations.DigestReads := by
  refine ⟨fun c v h => ?_, fun c L h => ?_⟩
  · rw [digestValue_of_long h, digestValue_of_long (by exact h)]
  · rw [digestValue_of_short h, digestValue_of_short (by exact h)]

/-! ## Injectivity in the seed -/

/-- Directly after `INIT` nothing is pending and the length is 0. -/
theorem digestValue_seeded (v : Word) : digestValue (Context.seeded v) = avalanche (v + Config.PRIME5) := by
  have noLength : lenMix (v + Config.PRIME5) 0 = v + Config.PRIME5 := add_zero _
  rw [digestValue_of_short (by simp), seeded_seed, seeded_totalLength, seeded_pending, noLength,
    tail_bytes (by decide), List.foldl_nil]

/-- Settles O29: the value after `INIT`, the value after reset by computation, and no step of it loses the seed. -/
theorem emptyStreamDigest : Obligations.EmptyStreamDigest := by
  refine ⟨fun v s => ⟨_, rfl, ?_⟩, ?_, fun v w h => ?_⟩
  · simp [digestValue_seeded]
  · rw [reset_ctx_eq_seeded, digestValue_seeded]
    decide
  · rw [digestValue_seeded, digestValue_seeded] at h
    exact add_left_injective _ (avalanche_injective h)

/-- Settles O34: below one block the seed is added to, goes through the tail steps and the avalanche. -/
theorem seedSensitivityShort : Obligations.SeedSensitivityShort := by
  intro S hS
  have short (v : Word) : H v S = avalanche (tail (v + Config.PRIME5 + BitVec.ofNat 32 S.length)
      (S.drop (16 * (S.length / 16)))) := by
    rw [H, if_pos hS]
  simp only [short]
  exact avalanche_injective.comp ((tail_injective _).comp ((add_left_injective _).comp (add_left_injective _)))

/-- Settles O35: `H` computes on the three streams. -/
theorem referenceDigests : Obligations.ReferenceDigests := by
  unfold Obligations.ReferenceDigests
  decide

end Sys2Proof.Machine
end

section
/-! PROOFS. Contexts of streams: a stream is one `UPDATE` after `INIT` (`43_oneshot.md` R162, R163), every step keeps
that and the invariants of `10_state.md` section 4. -/

namespace Sys2Proof.Machine

/-! ## The stream as one `UPDATE` -/

/-- The context of a stream is what one `UPDATE` of it leaves after `INIT`. -/
theorem streamContext_eq_updateContext (v : Word) (S : List Byte) :
    streamContext v S = updateContext S (Context.seeded v) :=
  Context.eq_of_items rfl rfl rfl (BitVec.zero_add _).symm

theorem updateContext_streamContext (v : Word) (S data : List Byte) :
    updateContext data (streamContext v S) = streamContext v (S ++ data) := by
  rw [streamContext_eq_updateContext, streamContext_eq_updateContext, updateContext_append]

/-- The counter of a stream that has a meaning does not wrap. -/
theorem streamContext_total_toNat {S : List Byte} (hS : S.length < 2 ^ 64) (v : Word) :
    (streamContext v S).totalLength.toNat = S.length := by
  rw [streamContext, BitVec.toNat_ofNat, Nat.mod_eq_of_lt hS]

theorem lenMix_ofNat (acc : Word) (n : Nat) : lenMix acc (BitVec.ofNat 64 n) = acc + BitVec.ofNat 32 n := by
  apply BitVec.eq_of_toNat_eq
  rw [lenMix_toNat, BitVec.toNat_add, BitVec.toNat_ofNat, BitVec.toNat_ofNat]
  omega

/-- `DIGEST` on the context of a stream answers `H` of it (`43_oneshot.md` R162). -/
theorem digestValue_streamContext {S : List Byte} (hS : S.length < 2 ^ 64) (v : Word) :
    digestValue (streamContext v S) = H v S := by
  have total := streamContext_total_toNat hS v
  by_cases short : S.length < 16
  · rw [digestValue_of_short (by omega), H, if_pos short, streamContext, lenMix_ofNat]
  · rw [digestValue_of_long (by omega), H, if_neg short, streamContext, lenMix_ofNat]

/-- From `INIT` on, `UPDATE`s and `DIGEST`s leave the context of the whole stream. -/
theorem runCommands_stream {cmds : List Instr} (hno : ∀ i ∈ cmds, isInit i = false) (v : Word) (s : State)
    (hfits : (streamOf cmds).length < 2 ^ 64) :
    ∃ t, runCommands (.init v :: cmds) s = .next t ∧ t.ctx = streamContext v (streamOf cmds) := by
  rw [runCommands_cons, exec_init, andThen_next, streamContext_eq_updateContext]
  refine runCommands_of_updated (D := []) hno ?_ (by simpa using hfits)
  rw [complete_ctx, updateContext_nil (seeded_pending_wf v)]

/-- A run with a `DIGEST` at its end goes as the run without it and then answers the digest of its context. -/
theorem runCommands_concat_digest {cmds : List Instr} {s t : State} (h : runCommands cmds s = .next t) :
    runCommands (cmds ++ [.digest]) s = .next (State.respond (.digest (digestValue t.ctx)) t) := by
  rw [runCommands_append, h, andThen_next, runCommands_cons, exec_digest, andThen_next, runCommands_nil]

/-- Settles O32: the context is that of the stream, and the `DIGEST` after it answers `H`. -/
theorem streamCharacterisation : Obligations.StreamCharacterisation := by
  intro v cmds s hno hfits
  obtain ⟨t, hrun, hctx⟩ := runCommands_stream hno v s hfits
  refine ⟨_, runCommands_concat_digest hrun, hctx, ?_⟩
  rw [respond_responses, List.getLast?_concat, hctx, digestValue_streamContext hfits]

theorem runCommands_init_update {data : List Byte} (hfits : data.length < 2 ^ 64) (v : Word) (s : State) :
    runCommands [.init v, .update data] s =
      .next (State.complete (streamContext v data) .ok (State.complete (Context.seeded v) .ok s)) := by
  rw [runCommands_cons, exec_init, andThen_next, runCommands_cons, exec_update_fits (by simpa using hfits),
    andThen_next, runCommands_nil, complete_ctx, streamContext_eq_updateContext]

/-- Settles O33: seeding, the update that makes the context of the stream, and the digest of that context. -/
theorem hashValue : Obligations.HashValue := by
  intro data seed s hfits
  refine ⟨_, runCommands_concat_digest (runCommands_init_update hfits (seed.getD 0) s), ?_, rfl⟩
  simp [digestValue_streamContext hfits]

/-! ## What every step keeps -/

/-- What a step does to the context: nothing, or it seeds it, or it updates it within the length bound. -/
theorem step_ctx_cases {s t : State} (h : step s = .next t) :
    t.ctx = s.ctx ∨ (∃ v, t.ctx = Context.seeded v) ∨
    (∃ data, s.ctx.totalLength.toNat + data.length < 2 ^ 64 ∧ t.ctx = updateContext data s.ctx) := by
  obtain ⟨-, rfl⟩ | ⟨i, len, -, hexec⟩ | ⟨op, -, rfl⟩ := step_next_cases h
  · exact .inl rfl
  · obtain ⟨v, -, e⟩ | ⟨data, -, hfits, e⟩ | ⟨data, -, -, e⟩ | ⟨-, e⟩ := exec_cases i (s.advance len)
    all_goals rw [hexec] at e; cases e
    · exact .inr (.inl ⟨v, rfl⟩)
    · exact .inr (.inr ⟨data, hfits, rfl⟩)
    · exact .inl rfl
  · exact .inl rfl

theorem seeded_onStream (v : Word) : (Context.seeded v).OnStream := ⟨[], by decide, rfl⟩

/-- An `UPDATE` within the bound goes on with the stream. -/
theorem updateContext_onStream {data : List Byte} {c : Context} (h : c.OnStream)
    (hfits : c.totalLength.toNat + data.length < 2 ^ 64) : (updateContext data c).OnStream := by
  obtain ⟨S, hS, hc⟩ := h
  rw [hc, streamContext_total_toNat hS] at hfits
  refine ⟨S ++ data, by rwa [List.length_append], ?_⟩
  rw [updateContext_seed, ← updateContext_streamContext, ← hc]

/-- Settles O5: seeding starts the empty stream and an update goes on with the one there is. -/
theorem stepKeepsOnStream : Obligations.StepKeepsOnStream := by
  intro s t hs h
  obtain e | ⟨v, e⟩ | ⟨data, hfits, e⟩ := step_ctx_cases h
  · rwa [e]
  · rw [e]; exact seeded_onStream v
  · rw [e]; exact updateContext_onStream hs hfits

theorem seeded_inv (v : Word) : (Context.seeded v).Inv := ⟨seeded_pending_wf v, rfl, fun _ => rfl⟩

/-- An `UPDATE` within the bound keeps the invariants of a context. While the length stays below 16 it is the number
of bytes pending, so no block completes. -/
theorem updateContext_inv {data : List Byte} {c : Context} (h : c.Inv)
    (hfits : c.totalLength.toNat + data.length < 2 ^ 64) : (updateContext data c).Inv := by
  have total := updateContext_total_toNat hfits
  have hcount : c.pending.length = c.totalLength.toNat % 16 := h.pcount_eq
  refine ⟨updateContext_pending_wf data c, ?_, fun hshort => ?_⟩
  · rw [Context.pcount, updateContext_pending_length, total, hcount, Nat.mod_add_mod]
  · rw [total, Config.BLOCK] at hshort
    rw [updateContext_lanes_of_short (by omega), h.lanes_short (by rw [Config.BLOCK]; omega), updateContext_seed]

/-- Settles O6: the context of a stream is an update of a seeded one. -/
theorem onStreamMeetsInv : Obligations.OnStreamMeetsInv := by
  rintro c ⟨S, hS, hc⟩
  rw [hc, streamContext_eq_updateContext]
  exact updateContext_inv (seeded_inv c.seed) (by simpa using hS)

theorem step_keeps_ctx_inv {s t : State} (hs : s.ctx.Inv) (h : step s = .next t) : t.ctx.Inv := by
  obtain e | ⟨v, e⟩ | ⟨data, hfits, e⟩ := step_ctx_cases h
  · rwa [e]
  · rw [e]; exact seeded_inv v
  · rw [e]; exact updateContext_inv hs hfits

/-- Settles O4: the context by what a step can do to it; the offset stays inside the program and the response is
counted because a step is idle or executes one whole entry. -/
theorem stepKeepsInv : Obligations.StepKeepsInv := by
  intro s t hs h
  by_cases hend : s.program.length ≤ s.bo
  · cases (step_of_exhausted hend).symm.trans h
    exact hs
  · obtain ⟨-, hbo, hprog, hci, r, hresp⟩ := step_moves_forward (Nat.not_le.1 hend) h
    refine ⟨step_keeps_ctx_inv hs.ctx h, by rwa [hprog], ?_⟩
    rw [hresp, List.length_append, hs.responses_length, hci]
    rfl

/-- Settles O3: reset is a seeded context with nothing executed. -/
theorem resetMeetsInvariants : Obligations.ResetMeetsInvariants :=
  ⟨⟨seeded_inv 0, Nat.le_refl 0, rfl⟩, seeded_onStream 0⟩

end Sys2Proof.Machine
end

section
/-! PROOFS. The call layer (`30_encoding.md` R70, `41_update.md` R120, `43_oneshot.md` R160, `60_exceptions.md` R187,
R188): what a call issues, what it answers, and what its errors leave. -/

namespace Sys2Proof.Machine

/-! ## Pseudo-instructions and the assembler -/

/-- Settles O44: the expansions as they are defined. -/
theorem pseudoExpansions : Obligations.PseudoExpansions :=
  ⟨rfl, fun _ _ => rfl, fun _ => rfl, fun _ => rfl⟩

/-- Settles O45: the assembler computes on the listing. -/
theorem assemblerListing : Obligations.AssemblerListing := by
  unfold Obligations.AssemblerListing
  decide

/-! ## Errors -/

theorem checkHash_seed_error (order : Config.ErrOrder) {data seed : Option Value} {fragments : List (List Byte)}
    {e : ErrorKind} (hdata : checkData data = .ok fragments) (hseed : checkSeed seed = .error e) :
    checkHash order data seed = .error e := by
  simp only [checkHash, hdata, hseed]

theorem checkHash_both_errors {data seed : Option Value} {e e' : ErrorKind} (hdata : checkData data = .error e)
    (hseed : checkSeed seed = .error e') :
    checkHash .dataFirst data seed = .error e ∧ checkHash .seedFirst data seed = .error e' := by
  simp only [checkHash, hdata, hseed, and_self]

/-- The error of a one-shot call is that of one of its arguments. -/
theorem checkHash_error {order : Config.ErrOrder} {data seed : Option Value} {e : ErrorKind}
    (h : checkHash order data seed = .error e) : checkData data = .error e ∨ checkSeed seed = .error e := by
  unfold checkHash at h
  split at h
  case h_1 => cases h
  case h_2 hdata _ => cases h; exact .inl hdata
  case h_3 _ hseed => cases h; exact .inr hseed
  case h_4 hdata _ => cases h; exact .inl hdata
  case h_5 _ hseed => cases h; exact .inr hseed

/-- The errors of the call layer are the three of the adapter (`60_exceptions.md` R181). -/
theorem checkData_ne_illegalCommand {data : Option Value} {e : ErrorKind} (h : checkData data = .error e) :
    e ≠ .illegalCommand := by
  obtain rfl | rfl := checkData_error h <;> decide

theorem checkSeed_ne_illegalCommand {seed : Option Value} {e : ErrorKind} (h : checkSeed seed = .error e) :
    e ≠ .illegalCommand := by
  rw [checkSeed_error h]
  decide

/-- A rejected call has an argument that was rejected. -/
theorem callCommands_error {order : Config.ErrOrder} {call : Call} {e : ErrorKind}
    (h : callCommands order call = .error e) :
    (∃ data, checkData data = .error e) ∨ ∃ seed, checkSeed seed = .error e := by
  cases call with
  | construct seed =>
    rw [callCommands] at h
    split at h
    case h_1 => cases h
    case h_2 e' hseed => cases h; exact .inr ⟨seed, hseed⟩
  | update data =>
    rw [callCommands] at h
    split at h
    case h_1 => cases h
    case h_2 e' hdata => cases h; exact .inl ⟨data, hdata⟩
  | digest => cases h
  | hash data seed =>
    rw [callCommands] at h
    split at h
    case h_1 => cases h
    case h_2 e' hhash =>
      cases h
      exact (checkHash_error hhash).imp (⟨data, ·⟩) (⟨seed, ·⟩)

/-- Settles O53: a rejected call issues nothing, and its error is not the engine's; a reserved opcode writes nothing of
the context. -/
theorem errorsLeaveContext : Obligations.ErrorsLeaveContext := by
  refine ⟨fun order call s e h => ⟨performCall_of_error h s, ?_⟩, fun op s => ⟨_, rfl, rfl, rfl, rfl⟩⟩
  obtain ⟨data, hdata⟩ | ⟨seed, hseed⟩ := callCommands_error h
  · exact checkData_ne_illegalCommand hdata
  · exact checkSeed_ne_illegalCommand hseed

/-- Data are missing, or of a wrong type. -/
theorem checkData_error_kind {data : Option Value} {e : ErrorKind} (h : checkData data = .error e) :
    e = if data.isNone then .missingArgument else .invalidArgumentType := by
  cases data with
  | none => cases h; rfl
  | some v =>
    cases v with
    | bytes b => cases h
    | text _ | int _ | nonIntegral | object => cases h; rfl
    | seq vs =>
      rw [checkData] at h
      split at h <;> cases h
      rfl

theorem performCall_hash_error {order : Config.ErrOrder} {data seed : Option Value} {e : ErrorKind}
    (h : checkHash order data seed = .error e) (s : State) :
    performCall order (.hash data seed) s = .answered (.error e) s :=
  performCall_of_error (by rw [callCommands, h]) s

/-- Settles O57: the check of a one-shot call with both, or with one of its arguments bad. -/
theorem hashErrorOrder : Obligations.HashErrorOrder := by
  intro data seed s
  refine ⟨fun e e' hdata hseed => ?_, fun e v hdata hseed order => performCall_hash_data_error order hdata hseed s,
    fun fragments e' hdata hseed order => performCall_hash_error (checkHash_seed_error order hdata hseed) s,
    fun e => checkData_error_kind, fun e' => checkSeed_error⟩
  obtain ⟨dataFirst, seedFirst⟩ := checkHash_both_errors hdata hseed
  exact ⟨performCall_hash_error dataFirst s, performCall_hash_error seedFirst s⟩

/-! ## Pieces of data -/

/-- The pieces the adapter cuts a fragment sequence into, one for each `UPDATE` it issues. -/
def pieces (fragments : List (List Byte)) : List (List Byte) := fragments.flatMap fun f => splitData f.length f

theorem fragmentCommands_eq (fragments : List (List Byte)) :
    fragmentCommands fragments = (pieces fragments).map .update :=
  List.map_flatMap.symm

theorem updateCommands_eq (data : List Byte) : updateCommands data = (pieces [data]).map .update := by
  rw [← fragmentCommands_eq]
  exact (List.append_nil _).symm

/-- Cutting loses no byte. -/
theorem pieces_flatten (fragments : List (List Byte)) : (pieces fragments).flatten = fragments.flatten := by
  induction fragments with
  | nil => rfl
  | cons f fs ih =>
    rw [pieces, List.flatMap_cons, List.flatten_append, splitData_flatten, ← pieces, ih, List.flatten_cons]

/-- With fuel for every byte, each piece fits one record. -/
theorem splitData_length_lt {fuel : Nat} {data p : List Byte} (h : data.length ≤ fuel)
    (hp : p ∈ splitData fuel data) : p.length < 2 ^ 32 := by
  induction fuel generalizing data with
  | zero =>
    obtain rfl : p = data := List.mem_singleton.1 hp
    omega
  | succ fuel ih =>
    rw [splitData] at hp
    split at hp
    case isTrue short =>
      obtain rfl : p = data := List.mem_singleton.1 hp
      exact short
    case isFalse long =>
      obtain rfl | hp := List.mem_cons.1 hp
      · rw [List.length_take, Config.LENW]; omega
      · exact ih (by rw [List.length_drop, Config.LENW]; omega) hp

theorem splitData_of_short {fuel : Nat} {data : List Byte} (h : data.length < 2 ^ 32) :
    splitData fuel data = [data] := by
  cases fuel with
  | zero => rfl
  | succ fuel => exact if_pos h

theorem splitData_ne_nil (fuel : Nat) (data : List Byte) : splitData fuel data ≠ [] := by
  cases fuel with
  | zero => exact List.cons_ne_nil _ _
  | succ fuel => rw [splitData]; split <;> exact List.cons_ne_nil _ _

theorem pieces_singleton_ne_nil (data : List Byte) : pieces [data] ≠ [] :=
  List.append_ne_nil_of_left_ne_nil (splitData_ne_nil _ data) _

theorem fragmentCommands_wellFormed {fragments : List (List Byte)} {i : Instr} (h : i ∈ fragmentCommands fragments) :
    WellFormed i := by
  rw [fragmentCommands_eq, pieces] at h
  obtain ⟨p, hp, rfl⟩ := List.mem_map.1 h
  obtain ⟨f, -, hp⟩ := List.mem_flatMap.1 hp
  exact decide_eq_true (splitData_length_lt (Nat.le_refl _) hp)

/-- Every command a call issues has a record. -/
theorem callCommands_wellFormed {order : Config.ErrOrder} {call : Call} {cmds : List Instr}
    (h : callCommands order call = .ok cmds) : ∀ i ∈ cmds, WellFormed i := by
  cases call with
  | construct seed =>
    rw [callCommands] at h
    split at h <;> cases h
    exact List.forall_mem_singleton.2 rfl
  | update data =>
    rw [callCommands] at h
    split at h <;> cases h
    exact fun i => fragmentCommands_wellFormed
  | digest => cases h; exact List.forall_mem_singleton.2 rfl
  | hash data seed =>
    rw [callCommands] at h
    split at h <;> cases h
    rw [List.forall_mem_append, List.forall_mem_cons]
    exact ⟨⟨rfl, fun i => fragmentCommands_wellFormed⟩, List.forall_mem_singleton.2 rfl⟩

/-! ## Accepted calls -/

theorem performCall_of_run {order : Config.ErrOrder} {call : Call} {cmds : List Instr} {s t : State}
    (hcmds : callCommands order call = .ok cmds) (hrun : runCommands cmds s = .next t) :
    performCall order call s = .answered (callAnswer cmds t) t := by
  rw [performCall, hcmds]
  simp only [hrun]

/-- A call that issued commands answers what the last of them answered. -/
theorem callAnswer_of_ne_nil {cmds : List Instr} (h : cmds ≠ []) (t : State) :
    callAnswer cmds t = t.responses.getLast?.getD .ok := by
  cases cmds with
  | nil => exact absurd rfl h
  | cons i cmds => rfl

/-- `UPDATE`s answer plain success, as many as there are and even if there is none. -/
theorem callAnswer_updates {fs : List (List Byte)} {s t : State} (h : runCommands (fs.map .update) s = .next t) :
    callAnswer (fs.map .update) t = .ok := by
  obtain rfl | ⟨gs, f, rfl⟩ := List.eq_nil_or_concat' fs
  · rfl
  · rw [List.map_append, runCommands_append] at h
    obtain ⟨u, -, h⟩ := andThen_eq_next h
    obtain ⟨v, hexec, hlast⟩ := andThen_eq_next h
    cases hlast
    rw [callAnswer_of_ne_nil (by simp), (exec_update_inv hexec).2, complete_responses, List.getLast?_concat,
      Option.getD_some]

theorem callAnswer_concat_digest (cmds : List Instr) (d : Word) (t : State) :
    callAnswer (cmds ++ [.digest]) (State.respond (.digest d) t) = .digest d := by
  rw [callAnswer_of_ne_nil (by simp), respond_responses, List.getLast?_concat, Option.getD_some]

theorem callCommands_update {data : Option Value} {fragments : List (List Byte)}
    (h : checkData data = .ok fragments) (order : Config.ErrOrder) :
    callCommands order (.update data) = .ok ((pieces fragments).map .update) := by
  rw [callCommands, h, ← fragmentCommands_eq]

theorem callCommands_hash {data seed : Option Value} {fragments : List (List Byte)} {v : Word}
    (hdata : checkData data = .ok fragments) (hseed : checkSeed seed = .ok v) (order : Config.ErrOrder) :
    callCommands order (.hash data seed) = .ok (.init v :: (pieces fragments).map .update ++ [.digest]) := by
  have checked : checkHash order data seed = .ok (fragments, v) := by simp only [checkHash, hdata, hseed]
  rw [callCommands, checked, ← fragmentCommands_eq]

/-- An accepted `update` answers success, with the context of one `UPDATE` of all its fragments. -/
theorem performCall_update {data : Option Value} {fragments : List (List Byte)} {s : State}
    (hdata : checkData data = .ok fragments) (h : s.ctx.pending.wf ∨ pieces fragments ≠ [])
    (hfits : s.ctx.totalLength.toNat + fragments.flatten.length < 2 ^ 64) (order : Config.ErrOrder) :
    ∃ t, performCall order (.update data) s = .answered .ok t ∧ t.ctx = updateContext fragments.flatten s.ctx := by
  obtain ⟨t, hrun, hctx⟩ := runCommands_updates h (by rwa [pieces_flatten])
  rw [pieces_flatten] at hctx
  exact ⟨t, by rw [performCall_of_run (callCommands_update hdata order) hrun, callAnswer_updates hrun], hctx⟩

theorem performCall_digest (order : Config.ErrOrder) (s : State) : performCall order .digest s =
    .answered (.digest (digestValue s.ctx)) (State.respond (.digest (digestValue s.ctx)) s) := by
  have hcall := performCall_of_run (order := order) (call := .digest) (cmds := [] ++ [.digest]) rfl
    (runCommands_concat_digest (runCommands_nil s))
  rwa [callAnswer_concat_digest] at hcall

/-- An accepted one-shot call answers `H` of all its fragments. -/
theorem performCall_hash {data seed : Option Value} {fragments : List (List Byte)} {v : Word}
    (hdata : checkData data = .ok fragments) (hseed : checkSeed seed = .ok v)
    (hfits : fragments.flatten.length < 2 ^ 64) (order : Config.ErrOrder) (s : State) :
    ∃ t, performCall order (.hash data seed) s = .answered (.digest (H v fragments.flatten)) t ∧
      t.ctx = streamContext v fragments.flatten := by
  have stream : streamOf ((pieces fragments).map .update) = fragments.flatten := by
    rw [streamOf_updates, pieces_flatten]
  obtain ⟨t, hrun, hctx⟩ := runCommands_stream (isInit_updates (pieces fragments)) v s (by rwa [stream])
  rw [stream] at hctx
  have hcall := performCall_of_run (callCommands_hash hdata hseed order) (runCommands_concat_digest hrun)
  rw [callAnswer_concat_digest, hctx, digestValue_streamContext hfits] at hcall
  exact ⟨_, hcall, hctx⟩

/-- Settles O55: one bad member spoils the data; a flat sequence is an accepted `update`. -/
theorem fragmentSequences : Obligations.FragmentSequences := by
  intro order s
  refine ⟨fun vs ⟨v, hmem, hv⟩ => performCall_update_error order (checkData_seq_error hmem hv) s,
    fun fs hwf hfits => ?_⟩
  have hdata : checkData (some (.seq (fs.map .bytes))) = .ok fs := by rw [checkData, allBytes_map]
  obtain ⟨t, hcall, hctx⟩ := performCall_update hdata (.inl hwf) hfits order
  exact ⟨t, _, hcall, exec_update_fits hfits, hctx⟩

/-- Settles O56: a byte sequence is the fragment sequence of itself alone. -/
theorem adapterIssuesRecords : Obligations.AdapterIssuesRecords := by
  have hdata (data : List Byte) : checkData (some (.bytes data)) = .ok [data] := rfl
  have whole (data : List Byte) : [data].flatten = data := List.flatten_singleton
  refine ⟨fun order call cmds => callCommands_wellFormed, fun data => ?stream, fun data h => ?short,
    fun order data seed v hseed => ⟨?updateIssues, rfl, ?hashIssues⟩, fun order data s hfits => ?update,
    fun order s => ⟨_, performCall_digest order s, rfl⟩, fun order data seed v s hseed hfits => ?hash⟩
  case stream => rw [updateCommands_eq, streamOf_updates, pieces_flatten, whole]
  case short => rw [updateCommands, splitData_of_short h, List.map_singleton]
  case updateIssues => rw [callCommands_update (hdata data), updateCommands_eq]
  case hashIssues => rw [callCommands_hash (hdata data) hseed, updateCommands_eq]
  case update =>
    obtain ⟨t, hcall, hctx⟩ :=
      performCall_update (hdata data) (.inr (pieces_singleton_ne_nil data)) (by rwa [whole]) order
    exact ⟨t, _, hcall, exec_update_fits hfits, by rw [hctx, whole, complete_ctx]⟩
  case hash =>
    obtain ⟨t, hcall, hctx⟩ := performCall_hash (hdata data) hseed (by rwa [whole]) order s
    rw [whole] at hcall hctx
    exact ⟨t, hcall, hctx⟩

end Sys2Proof.Machine
end

section
/-! PROOFS. Systems of engines (`10_state.md` R32, `43_oneshot.md` R167, `20_memory.md` R58, R62): a serial interleaving
is each engine's own run, and entries that reach different engines may come in any order. -/

namespace Sys2Proof.Machine

variable {n : Nat}

/-! ## A serial interleaving -/

theorem after_eq_next {o : SystemOutcome n} {rs rs' : List (TaggedResponse n)} {sys : System n}
    (h : o.after rs = .next sys rs') : ∃ rs'', o = .next sys rs'' ∧ rs' = rs ++ rs'' := by
  cases o with
  | next sys' rs'' => cases h; exact ⟨rs'', rfl, rfl⟩
  | refused r => cases h

theorem after_eq_refused {o : SystemOutcome n} {rs : List (TaggedResponse n)} {r : Refusal}
    (h : o.after rs = .refused r) : o = .refused r := by
  cases o with
  | next sys' rs' => cases h
  | refused r' => exact h

/-- The first entry of a run completes, with one response that comes first, or the run is refused there. -/
theorem run_cons_cases (e : Tagged n) (es : List (Tagged n)) (sys : System n) :
    (∃ t r, execItem e.item sys[e.engine] = .next t ∧ t.responses = sys[e.engine].responses ++ [r] ∧
      System.run (e :: es) sys = (System.run es (sys.set e.engine t)).after [(e.engine, r)]) ∨
    (∃ r, execItem e.item sys[e.engine] = .refused r ∧ System.run (e :: es) sys = .refused r) := by
  obtain ⟨t, r, hexec, hresp, hissue⟩ | ⟨r, hexec, hissue⟩ := issue_cases e sys
  · exact .inl ⟨t, r, hexec, hresp, by rw [System.run, hissue]⟩
  · exact .inr ⟨r, hexec, by rw [System.run, hissue]⟩

/-- A run is refused only for the length bound, whichever entry it stops at. -/
theorem run_refused {es : List (Tagged n)} {sys : System n} {r : Refusal} (h : System.run es sys = .refused r) :
    r = .totalLengthOverflow := by
  induction es generalizing sys with
  | nil => cases h
  | cons e es ih =>
    obtain ⟨t, r', -, -, hrun⟩ | ⟨r', hexec, hrun⟩ := run_cons_cases e es sys
    · exact ih (after_eq_refused (hrun.symm.trans h))
    · cases hrun.symm.trans h
      exact execItem_refused hexec

/-- Each engine of a run that completes has run its own entries, and its responses are among the run's. -/
theorem run_eq_own_runs {es : List (Tagged n)} {sys sys' : System n} {rs : List (TaggedResponse n)}
    (h : System.run es sys = .next sys' rs) :
    rs.map Prod.fst = es.map Tagged.engine ∧
      ∀ k : Fin n, runItems (entriesOf k es) sys[k] = .next sys'[k] ∧
        sys'[k].responses = sys[k].responses ++ responsesOf k rs := by
  induction es generalizing sys rs with
  | nil => cases h; exact ⟨rfl, fun k => ⟨rfl, (List.append_nil _).symm⟩⟩
  | cons e es ih =>
    obtain ⟨t, r, hexec, hresp, hrun⟩ | ⟨r, -, hrun⟩ := run_cons_cases e es sys
    case inr => cases hrun.symm.trans h
    obtain ⟨rs', hrest, rfl⟩ := after_eq_next (hrun.symm.trans h)
    obtain ⟨htags, hown⟩ := ih hrest
    refine ⟨congrArg (e.engine :: ·) htags, fun k => ?_⟩
    obtain ⟨hrun, hresps⟩ := hown k
    rw [system_set_get] at hrun hresps
    by_cases hk : e.engine = k
    · subst hk
      rw [if_pos rfl] at hrun hresps
      rw [entriesOf_cons_same, runItems_cons, hexec, andThen_next, List.singleton_append, responsesOf_cons_same, hresps,
        hresp, List.append_assoc]
      exact ⟨hrun, rfl⟩
    · rw [if_neg hk] at hrun hresps
      rw [entriesOf_cons_other hk, List.singleton_append, responsesOf_cons_other hk]
      exact ⟨hrun, hresps⟩

/-- If every engine's own run completes, so does the interleaving. -/
theorem run_of_own_runs {es : List (Tagged n)} {sys : System n}
    (h : ∀ k : Fin n, ∃ t, runItems (entriesOf k es) sys[k] = .next t) :
    ∃ sys' rs, System.run es sys = .next sys' rs := by
  induction es generalizing sys with
  | nil => exact ⟨sys, [], rfl⟩
  | cons e es ih =>
    obtain ⟨u, hown⟩ := h e.engine
    rw [entriesOf_cons_same, runItems_cons] at hown
    obtain ⟨t, hexec, hown⟩ := andThen_eq_next hown
    have others : ∀ k : Fin n, ∃ u, runItems (entriesOf k es) (sys.set e.engine t)[k] = .next u := by
      intro k
      rw [system_set_get]
      by_cases hk : e.engine = k
      · subst hk
        rw [if_pos rfl]
        exact ⟨u, hown⟩
      · rw [if_neg hk, ← entriesOf_cons_other hk]
        exact h k
    obtain ⟨sys', rs, hrest⟩ := ih others
    obtain ⟨t', r, hexec', -, hrun⟩ | ⟨r, hexec', -⟩ := run_cons_cases e es sys
    · cases hexec.symm.trans hexec'
      exact ⟨sys', (e.engine, r) :: rs, by rw [hrun, hrest]; rfl⟩
    · cases hexec.symm.trans hexec'

/-- Settles O59: both directions of "a run is every engine's own run". -/
theorem independentInterleaving : Obligations.IndependentInterleaving := fun _ _ _ =>
  ⟨fun _ _ => run_eq_own_runs, run_of_own_runs⟩

/-! ## Entries with no order between them -/

/-- Two entries for one engine are refused. -/
theorem issueTogether_conflict {es : List (Tagged n)} {k : Fin n} (h : 1 < (entriesOf k es).length)
    (sys : System n) : ∃ k', System.issueTogether es sys = .refused (.unserialisedAccess k') := by
  obtain ⟨item, hitem⟩ := List.exists_mem_of_length_pos (Nat.zero_lt_of_lt h)
  obtain ⟨e, he, -⟩ := List.mem_map.1 hitem
  obtain ⟨hmem, htag⟩ := List.mem_filter.1 he
  have conflict : (es.find? fun e => decide (1 < (entriesOf e.engine es).length)).isSome := by
    rw [List.find?_isSome]
    exact ⟨e, hmem, by simpa [of_decide_eq_true htag] using h⟩
  obtain ⟨e', he'⟩ := Option.isSome_iff_exists.1 conflict
  exact ⟨e'.engine, by rw [System.issueTogether, he']⟩

/-- With at most one entry for each engine, entries that come together run in the order they are listed in. -/
theorem issueTogether_eq_run {es : List (Tagged n)} (h : ∀ k : Fin n, (entriesOf k es).length ≤ 1)
    (sys : System n) : System.issueTogether es sys = System.run es sys := by
  have none : (es.find? fun e => decide (1 < (entriesOf e.engine es).length)) = none :=
    List.find?_eq_none.2 fun e _ => by simpa using h e.engine
  rw [System.issueTogether, none]

/-- An engine with at most one entry has the same one in any order of the list. -/
theorem entriesOf_eq_of_perm {es es' : List (Tagged n)} {k : Fin n} (h : (entriesOf k es).length ≤ 1)
    (hperm : es.Perm es') : entriesOf k es' = entriesOf k es := by
  have own : (entriesOf k es).Perm (entriesOf k es') := (hperm.filter _).map _
  obtain hnil | ⟨item, hone⟩ : entriesOf k es = [] ∨ ∃ item, entriesOf k es = [item] := by
    rw [← List.length_eq_zero_iff, ← List.length_eq_one_iff]
    omega
  · rw [hnil] at own ⊢
    exact own.nil_eq.symm
  · rw [hone] at own ⊢
    exact (List.singleton_perm.1 own).symm

/-- A tagged response is counted among those of its engine. -/
theorem count_eq_count_responsesOf (rs : List (TaggedResponse n)) (k : Fin n) (r : Response) :
    rs.count (k, r) = (responsesOf k rs).count r := by
  induction rs with
  | nil => rfl
  | cons a rs ih =>
    obtain ⟨j, q⟩ := a
    by_cases hj : j = k
    · subst hj
      rw [responsesOf_cons_same, List.count_cons, List.count_cons, ih]
      simp
    · rw [responsesOf_cons_other hj, List.count_cons, ih]
      simp [hj]

/-- Lists of responses that agree on each engine are the same up to their order. -/
theorem perm_of_responsesOf_eq {rs rs' : List (TaggedResponse n)}
    (h : ∀ k : Fin n, responsesOf k rs = responsesOf k rs') : rs.Perm rs' :=
  List.perm_iff_count.2 fun ⟨k, r⟩ => by
    rw [count_eq_count_responsesOf, count_eq_count_responsesOf, h k]

/-- Two lists with the same entries for each engine: when one completes the other does, with the same engines and, up
to their order, the same responses. -/
theorem run_of_entriesOf_eq {es es' : List (Tagged n)} (h : ∀ k : Fin n, entriesOf k es' = entriesOf k es)
    {sys sys' : System n} {rs : List (TaggedResponse n)} (hrun : System.run es sys = .next sys' rs) :
    ∃ rs', System.run es' sys = .next sys' rs' ∧ rs.Perm rs' := by
  obtain ⟨-, own⟩ := run_eq_own_runs hrun
  obtain ⟨sys'', rs', hrun'⟩ := run_of_own_runs (es := es') (sys := sys) fun k => ⟨_, (h k).symm ▸ (own k).1⟩
  obtain ⟨-, own'⟩ := run_eq_own_runs hrun'
  have same (k : Fin n) : sys''[k] = sys'[k] := by
    have hk := (own' k).1
    rw [h k, (own k).1] at hk
    exact (Host.Outcome.next.inj hk).symm
  have hsys : sys'' = sys' := Vector.ext fun i hi => same ⟨i, hi⟩
  subst hsys
  exact ⟨rs', hrun', perm_of_responsesOf_eq fun k =>
    List.append_cancel_left ((own k).2.symm.trans (own' k).2)⟩

/-- Settles O60: a conflict is refused; without one, either order completes alike or is refused for the length bound. -/
theorem unorderedAccess : Obligations.UnorderedAccess := by
  intro n es sys
  refine ⟨fun k h => issueTogether_conflict h sys, fun es' h hperm => ?_⟩
  have same (k : Fin n) : entriesOf k es' = entriesOf k es := entriesOf_eq_of_perm (h k) hperm
  rw [issueTogether_eq_run h, issueTogether_eq_run fun k => by rw [same k]; exact h k]
  cases hrun : System.run es sys with
  | next sys' rs =>
    obtain ⟨rs', hrun', hrs⟩ := run_of_entriesOf_eq same hrun
    exact .inl ⟨sys', rs, rs', rfl, hrun', hrs⟩
  | refused r =>
    cases hrun' : System.run es' sys with
    | next sys' rs =>
      obtain ⟨rs', e, -⟩ := run_of_entriesOf_eq (fun k => (same k).symm) hrun'
      cases hrun.symm.trans e
    | refused r' => exact .inr ⟨r, rfl, by rw [run_refused hrun, run_refused hrun']⟩

end Sys2Proof.Machine
end
